-- ==== Sys2Proof/Word.lean ====
section
/-! DEFINITION. The word types of the core: 8-bit bytes and register indices (00_scope.md R6, R9; 10_state.md R15). -/

namespace Sys2Proof

/-- A register, a memory cell, an immediate, an opcode or an operand: 8 bits, unsigned (R6, R9). -/
abbrev Byte := BitVec 8

/-- The index of one of the eight registers R0 to R7 (R15). -/
abbrev Reg := Fin 8

end Sys2Proof
end

