-- ==== Sys2Proof/Config.lean ====
section
/-! DEFINITION. What an implementation fixes and the spec leaves open or lists as a parameter (00_scope.md R6).
The remaining parameters of R6 (the widths, the 256 cells, the three fetch bytes) stand as literals where the rules use
them. No instruction of this hardware has an undefined result, so there is no free value. -/

namespace Sys2Proof.Config

/-- SP_INDEX: the register PUSH, POP, CALL and RET use as the stack pointer (R6, 10_state.md R17). -/
abbrev spIndex : Reg := 7

/-- SP_RESET: the reset value of R7 (R6, 10_state.md R18). -/
def spReset : Byte := 0xF4#8

/-- PC_RESET: the entry point (R6, 10_state.md R21). -/
def pcReset : Nat := 0

/-- FL_RESET: the reset value of the flag register (R6, 10_state.md R24, the spec's decision D15). -/
def flReset : Byte := 0x00#8

/-- The value of RESET_GPR that `State.reset` takes for each of R0 to R6. DESIGN CHOICE (log 1): the spec leaves it OPEN
(R18, D14); `State.resetWith` takes any values. Unsafe for a claim that rests on this zero. -/
def resetGpr : Byte := 0x00#8

/-- What a cell that memory does not list reads as. DESIGN CHOICE (log 2): the spec leaves the cells outside the image
OPEN (R27, D16). Any 256 cells are some memory of the model, so a claim over every memory is a claim over every
MEM_INIT; only a claim about the empty list of `State.reset` rests on this zero. Unsafe for such a claim. -/
def unlistedByte : Byte := 0x00#8

end Sys2Proof.Config
end

