-- ==== Sys2Proof/Machine/State.lean ====
section
/-! DEFINITION. The complete state of the machine (10_state.md R35), the reasons a step can stop, and the state after
reset (10_state.md R18, R21, R24, R32, R33; 70_reset_and_hazards.md R116). -/

namespace Sys2Proof.Machine

/-- The register file: eight cells, none hard-wired, no banks (R15). -/
structure RegFile where
  r0 : Byte
  r1 : Byte
  r2 : Byte
  r3 : Byte
  r4 : Byte
  r5 : Byte
  r6 : Byte
  r7 : Byte
deriving DecidableEq, Repr

/-- The codes of the fault record (60_exceptions.md R99). -/
inductive FaultCode where
  /-- Code 1: a fetch address above 255 (R100). -/
  | oobAddr
  /-- Code 2: a register operand byte above 7 (R100). -/
  | oobReg
  /-- Code 3: an opcode byte outside the table (R101). -/
  | unknownInstruction
  /-- Code 4: an ALU selector outside ADD, MUL and CMP; no instruction raises it (R102). -/
  | unsupportedOperation
  /-- Code 5: PUSH or CALL with a stack pointer of 0 (R103). -/
  | stackOverflow
  /-- Code 6: POP or RET whose value to be incremented is 255 (R103). -/
  | stackUnderflow
deriving DecidableEq, Repr

/-- The fault record (R31, R99): the code, the pc of the faulting instruction, and the detail. -/
structure FaultRecord where
  code : FaultCode
  fpc : Nat
  detail : Nat
deriving DecidableEq, Repr

/-- The run status (R29). -/
inductive RunStatus where
  | running
  | halted
  | faulted (rec : FaultRecord)
deriving DecidableEq, Repr

/-- The memory array (R26): (address, byte) pairs in one canonical form, addresses strictly rising and at most 255, no
entry equal to what an unlisted cell reads as. -/
abbrev Memory := List Host.Cell

/-- The complete state (R35): memory, registers, pc (never reduced modulo 256, R19), FL, run status and output log
(oldest value first, R33). -/
structure State where
  mem : Memory
  regs : RegFile
  pc : Nat
  fl : Byte
  status : RunStatus
  out : List Byte
deriving DecidableEq, Repr

/-- Why a step has no next state. A fault of the HARDWARE is not among these: it is a next state whose status is
`RunStatus.faulted` (R104, log 5). -/
inductive Fault where
  /-- Raised by `step` on a core whose status is Halted: it takes no step until a reset (R29, R82). Safe. -/
  | coreHalted
  /-- Raised by `step` on a core whose status is Faulted: it takes no step until a reset (R29, R82). Safe. -/
  | coreFaulted (rec : FaultRecord)
deriving DecidableEq, Repr

/-- Why an instruction has no meaning in the model. -/
inductive Refusal where
  /-- Raised by an arm of `exec` for an instruction not modelled yet; no arm is one. Safe. -/
  | notModelled (mnemonic : String)
deriving DecidableEq, Repr

/-- The outcome of one step. -/
abbrev StepOutcome := Host.Outcome State Fault Refusal

/-- RESET_GPR (R18): the values R0 to R6 take at a reset, any byte each. -/
structure ResetGpr where
  r0 : Byte
  r1 : Byte
  r2 : Byte
  r3 : Byte
  r4 : Byte
  r5 : Byte
  r6 : Byte
deriving DecidableEq, Repr

/-- The state right after a reset over a memory the host has loaded (R116). R18 and R27 leave RESET_GPR and MEM_INIT open
and have a model take them as arguments. -/
def State.resetWith (gpr : ResetGpr) (mem : Memory) : State where
  mem := mem
  regs := ⟨gpr.r0, gpr.r1, gpr.r2, gpr.r3, gpr.r4, gpr.r5, gpr.r6, Config.spReset⟩
  pc := Config.pcReset
  fl := Config.flReset
  status := .running
  out := []

/-- The RESET_GPR that `State.reset` takes. DESIGN CHOICE (log 1). -/
def ResetGpr.chosen : ResetGpr :=
  ⟨Config.resetGpr, Config.resetGpr, Config.resetGpr, Config.resetGpr, Config.resetGpr, Config.resetGpr, Config.resetGpr⟩

/-- The machine right after reset with nothing loaded. R0 to R6 and the memory are the model's choice (log 1, log 2). -/
def State.reset : State := State.resetWith ResetGpr.chosen []

end Sys2Proof.Machine
end

