-- ==== Sys2Proof/Machine/Ops.lean ====
section
/-! DEFINITION. The named operations over memory, registers, output and stack; raising and taking a fault; ending a step.
(00_scope.md R10; 20_memory.md R39, R40; 40_engine.md R73 to R76; 43_stack_control.md R90, R91; 60_exceptions.md R104.) -/

namespace Sys2Proof.Machine

/-! ## Memory as a list of cells -/

/-- The byte at an address: the listed one, or what an unlisted cell reads as. -/
def Memory.read : Memory → Nat → Byte
  | [], _ => Config.unlistedByte
  | (b, w) :: m, a => if a = b then w else Memory.read m a

/-- A cell put before a memory, unless it equals what an unlisted cell reads as. -/
def Memory.cons (a : Nat) (v : Byte) (m : Memory) : Memory :=
  if v = Config.unlistedByte then m else (a, v) :: m

/-- The memory with one byte written; the canonical form is kept. -/
def Memory.write : Memory → Nat → Byte → Memory
  | [], a, v => Memory.cons a v []
  | (b, w) :: m, a, v =>
    if a < b then Memory.cons a v ((b, w) :: m)
    else if a = b then Memory.cons a v m
    else (b, w) :: Memory.write m a v

/-- The canonical form from an address up: addresses strictly rising and at most 255, no entry equal to an unlisted cell. -/
def Memory.wfFrom : Nat → Memory → Bool
  | _, [] => true
  | lo, (a, v) :: m =>
    decide (lo ≤ a) && decide (a ≤ 255) && decide (v ≠ Config.unlistedByte) && Memory.wfFrom (a + 1) m

/-- The canonical form of a memory. -/
def Memory.wf (m : Memory) : Bool := Memory.wfFrom 0 m

/-! ## Registers -/

/-- The cell Ri of a register file (R15). -/
def RegFile.get (f : RegFile) : Reg → Byte
  | 0 => f.r0
  | 1 => f.r1
  | 2 => f.r2
  | 3 => f.r3
  | 4 => f.r4
  | 5 => f.r5
  | 6 => f.r6
  | 7 => f.r7

/-- The register file with the cell Ri replaced (R15). -/
def RegFile.set (f : RegFile) (i : Reg) (v : Byte) : RegFile :=
  match i with
  | 0 => { f with r0 := v }
  | 1 => { f with r1 := v }
  | 2 => { f with r2 := v }
  | 3 => { f with r3 := v }
  | 4 => { f with r4 := v }
  | 5 => { f with r5 := v }
  | 6 => { f with r6 := v }
  | 7 => { f with r7 := v }

/-- `x[i]`: the value of register Ri (R10). -/
def State.reg (s : State) (i : Reg) : Byte := s.regs.get i

/-- `x[i] <- v`: register Ri takes v mod 256 (R10, R37). -/
def State.writeReg (s : State) (i : Reg) (v : Nat) : State := { s with regs := s.regs.set i (BitVec.ofNat 8 v) }

/-- sp: the value of R7 (R17, R42). -/
def State.sp (s : State) : Nat := (s.reg Config.spIndex).toNat

/-! ## Raising a fault and reaching memory -/

/-- `raise <Fault>(info)`: what the faulting step records besides its pc (R10, R99). -/
structure Raised where
  code : FaultCode
  detail : Nat
deriving DecidableEq, Repr

/-- The byte at an address, without the range check: what `MemRead` returns when the check passes. -/
def State.readByte (s : State) (a : Nat) : Byte := s.mem.read a

/-- `MemRead(addr, 1)` (R39). Addresses are naturals: no access computes a negative one (log 10). -/
def memRead (a : Nat) (s : State) : Except Raised Byte :=
  if 255 < a then .error ⟨.oobAddr, a⟩ else .ok (s.readByte a)

/-- `MemWrite(addr, 1, v)`: the cell takes v mod 256 (R40). -/
def memWrite (a v : Nat) (s : State) : Except Raised State :=
  if 255 < a then .error ⟨.oobAddr, a⟩ else .ok { s with mem := s.mem.write a (BitVec.ofNat 8 v) }

/-- `emit(v)`: the value appended to the output log (R10, R33). -/
def State.emit (s : State) (v : Byte) : State := { s with out := s.out ++ [v] }

/-! ## The stack pointer -/

/-- The decrement of a push-type instruction: StackOverflow when the value to be decremented is 0 (R90, R91, R103). -/
def spDecrement (s : State) : Except Raised State :=
  if s.sp = 0 then .error ⟨.stackOverflow, s.sp⟩ else .ok (s.writeReg Config.spIndex (s.sp - 1))

/-- The increment of a pop-type instruction: StackUnderflow when the value to be incremented is 255 (R90, R91, R103). -/
def spIncrement (s : State) : Except Raised State :=
  if s.sp = 255 then .error ⟨.stackUnderflow, s.sp⟩ else .ok (s.writeReg Config.spIndex (s.sp + 1))

/-! ## The end of a step -/

/-- How a handler ends its step (40_engine.md R73). -/
inductive Ending where
  /-- Sequential: pc advances by the width. -/
  | advance (w : Nat)
  /-- Control transfer: pc is set to the target. -/
  | jump (t : Byte)
  /-- HLT: the run ends cleanly. -/
  | halt
deriving DecidableEq, Repr

/-- What a handler gives: the state with its effect and its ending, or the fault it raises. -/
abbrev Handled := Except Raised (State × Ending)

/-- The next-pc logic (40_engine.md R76): the only place that writes pc, never reducing it modulo 256. -/
def applyEnding (o : Ending) (s : State) : State :=
  match o with
  | .advance w => { s with pc := s.pc + w }
  | .jump t => { s with pc := t.toNat }
  | .halt => { s with status := .halted }

/-- Taking a fault (60_exceptions.md R104): the status records it and nothing else changes. There is no trap entry and no
return beside it (R107, R108): only a reset (`hostReset`) leads out. -/
def takeFault (e : Raised) (s : State) : State := { s with status := .faulted ⟨e.code, s.pc, e.detail⟩ }

/-- The end of a step that began in s: a handler's effect is committed only if it raised no fault (40_engine.md R82). -/
def commit (s : State) (h : Handled) : StepOutcome :=
  match h with
  | .error e => .next (takeFault e s)
  | .ok (t, o) => .next (applyEnding o t)

end Sys2Proof.Machine
end

