-- ==== Sys2Proof/Machine/Operands.lean ====
section
/-! DEFINITION. The two operand forms: a register byte and an immediate byte (30_encoding.md R56 to R58; 40_engine.md R72). -/

namespace Sys2Proof.Machine

/-- A register operand: the whole byte is the index, and a byte above 7 raises OutOfBounds with the byte as detail. The
index is never reduced to 3 bits (R56, R72). -/
def regOperand (b : Byte) : Except Raised Reg :=
  if h : b.toNat < 8 then .ok ⟨b.toNat, h⟩ else .error ⟨.oobReg, b.toNat⟩

/-- An immediate operand: the whole byte, unsigned, used as it stands (R57). -/
def immOperand (b : Byte) : Nat := b.toNat

end Sys2Proof.Machine
end

