-- ==== Sys2Proof/Machine/Flags.lean ====
section
/-! DEFINITION. The flag register (10_state.md R22) and the one computation that gives it a value (42_alu.md R89). -/

namespace Sys2Proof.Machine

/-- FL after comparing a with b, unsigned: exactly one of L, G and E, bits 7:3 zero (R89). -/
def compareFlags (a b : Nat) : Byte :=
  if a < b then 0b00000100#8 else if b < a then 0b00000010#8 else 0b00000001#8

/-- Bit 2 of FL, L: the last CMP found regA < regB (R22). -/
def State.flagL (s : State) : Bool := s.fl.getLsbD 2

/-- Bit 1 of FL, G: the last CMP found regA > regB (R22). -/
def State.flagG (s : State) : Bool := s.fl.getLsbD 1

/-- Bit 0 of FL, E: the last CMP found regA = regB (R22). -/
def State.flagE (s : State) : Bool := s.fl.getLsbD 0

end Sys2Proof.Machine
end

