-- ==== Sys2Proof/Machine/Alu.lean ====
section
/-! DEFINITION. The ALU and its three instructions (42_alu.md R85 to R89). -/

namespace Sys2Proof.Machine

/-- The ALU's selector for ADD. The spec numbers no selector: the opcode byte is used (DESIGN CHOICE, log 9). -/
def aluAdd : Byte := 0xA0#8

/-- The ALU's selector for MUL (log 9). -/
def aluMul : Byte := 0xA2#8

/-- The ALU's selector for CMP (log 9). -/
def aluCmp : Byte := 0xA7#8

/-- `apply(op, regA, regB)` (R85): both sources are sampled before the write; ADD and MUL write regA with the exact result
mod 256, CMP writes FL only; any other selector raises UnsupportedOperation (R86, R102). -/
def aluApply (sel : Byte) (a b : Reg) (s : State) : Except Raised State :=
  if sel = aluAdd then .ok (s.writeReg a ((s.reg a).toNat + (s.reg b).toNat))
  else if sel = aluMul then .ok (s.writeReg a ((s.reg a).toNat * (s.reg b).toNat))
  else if sel = aluCmp then .ok { s with fl := compareFlags (s.reg a).toNat (s.reg b).toNat }
  else .error ⟨.unsupportedOperation, sel.toNat⟩

/-- The shape of the three ALU instructions: check op1, then op2, apply the ALU, advance by 3 (R72, R74). -/
def aluHandler (sel op1 op2 : Byte) (s : State) : Handled := do
  let a ← regOperand op1
  let b ← regOperand op2
  let t ← aluApply sel a b s
  return (t, .advance 3)

/-- ADD regA, regB (R87). -/
def execAdd (op1 op2 : Byte) (s : State) : StepOutcome := commit s (aluHandler aluAdd op1 op2 s)

/-- MUL regA, regB (R88). -/
def execMul (op1 op2 : Byte) (s : State) : StepOutcome := commit s (aluHandler aluMul op1 op2 s)

/-- CMP regA, regB (R89). -/
def execCmp (op1 op2 : Byte) (s : State) : StepOutcome := commit s (aluHandler aluCmp op1 op2 s)

end Sys2Proof.Machine
end

