-- ==== Sys2Proof/Machine/Engine.lean ====
section
/-! DEFINITION. HLT, the one instruction that belongs to the engine (40_engine.md R79). -/

namespace Sys2Proof.Machine

/-- HLT (R79): the status becomes Halted; pc still addresses the HLT (R76). -/
def execHlt (s : State) : StepOutcome := commit s (.ok (s, .halt))

end Sys2Proof.Machine
end

