-- ==== Sys2Proof/Machine/LoadOutput.lean ====
section
/-! DEFINITION. LDI and PRN (41_load_output.md R83, R84). -/

namespace Sys2Proof.Machine

/-- LDI reg, imm8 (R83). -/
def execLdi (op1 op2 : Byte) (s : State) : StepOutcome :=
  commit s do
    let d ← regOperand op1
    return (s.writeReg d (immOperand op2), .advance 3)

/-- PRN reg (R84). -/
def execPrn (op1 : Byte) (s : State) : StepOutcome :=
  commit s do
    let r ← regOperand op1
    return (s.emit (s.reg r), .advance 2)

end Sys2Proof.Machine
end

