-- ==== Sys2Proof/Machine/StackControl.lean ====
section
/-! DEFINITION. PUSH, POP, CALL and RET (43_stack_control.md R90 to R96). -/

namespace Sys2Proof.Machine

/-- PUSH reg (R92): the source register is read after the decrement, so PUSH R7 stores the decremented pointer (D11). -/
def execPush (op1 : Byte) (s : State) : StepOutcome :=
  commit s do
    let r ← regOperand op1
    let s1 ← spDecrement s
    let s2 ← memWrite s1.sp (s1.reg r).toNat s1
    return (s2, .advance 2)

/-- POP reg (R93): read, write the destination, then increment R7 as it then stands, so POP R7 leaves v + 1 (D12). -/
def execPop (op1 : Byte) (s : State) : StepOutcome :=
  commit s do
    let d ← regOperand op1
    let v ← memRead s.sp s
    let s1 ← spIncrement (s.writeReg d v.toNat)
    return (s1, .advance 2)

/-- CALL reg (R94): the return address is pc + 2; the target register is read after the decrement (D13). -/
def execCall (op1 : Byte) (s : State) : StepOutcome :=
  commit s do
    let r ← regOperand op1
    let s1 ← spDecrement s
    let s2 ← memWrite s1.sp (s.pc + 2) s1
    return (s2, .jump (s2.reg r))

/-- RET (R95). -/
def execRet (s : State) : StepOutcome :=
  commit s do
    let t ← memRead s.sp s
    let s1 ← spIncrement s
    return (s1, .jump t)

end Sys2Proof.Machine
end

