-- ==== Sys2Proof/Syntax.lean ====
section
/-! DEFINITION. The ten instructions of the opcode table (00_scope.md R2, 30_encoding.md R59), one constructor a row.
An operand is the operand BYTE as fetched: R56 makes the whole byte the register index, and a byte above 7 is an operand
the instruction faults on (R72), not another instruction. Slots R58 marks "not used" are no part of an instruction (R62). -/

namespace Sys2Proof

/-- An instruction with its used operand bytes, in the slots of R58. -/
inductive Instr where
  /-- LDI reg, imm8 (R83). -/
  | ldi (reg imm8 : Byte)
  /-- PRN reg (R84). -/
  | prn (reg : Byte)
  /-- HLT (R79). -/
  | hlt
  /-- MUL regA, regB (R88). -/
  | mul (regA regB : Byte)
  /-- PUSH reg (R92). -/
  | push (reg : Byte)
  /-- POP reg (R93). -/
  | pop (reg : Byte)
  /-- CALL reg (R94). -/
  | call (reg : Byte)
  /-- RET (R95). -/
  | ret
  /-- ADD regA, regB (R87). -/
  | add (regA regB : Byte)
  /-- CMP regA, regB (R89). -/
  | cmp (regA regB : Byte)
deriving DecidableEq, Repr

end Sys2Proof
end

