-- ==== Sys2Proof/Machine/Dispatch.lean ====
section
/-! DEFINITION. The dispatch: one arm per instruction, each one call of its meaning (40_engine.md R70). -/

namespace Sys2Proof.Machine

/-- The instruction's own rule, run after the fetch and the decode (40_engine.md R82). -/
def exec (i : Instr) (s : State) : Host.Outcome State Fault Refusal :=
  match i with
  | .ldi reg imm8 => Sys2Proof.Machine.execLdi reg imm8 s
  | .prn reg => Sys2Proof.Machine.execPrn reg s
  | .hlt => Sys2Proof.Machine.execHlt s
  | .mul regA regB => Sys2Proof.Machine.execMul regA regB s
  | .push reg => Sys2Proof.Machine.execPush reg s
  | .pop reg => Sys2Proof.Machine.execPop reg s
  | .call reg => Sys2Proof.Machine.execCall reg s
  | .ret => Sys2Proof.Machine.execRet s
  | .add regA regB => Sys2Proof.Machine.execAdd regA regB s
  | .cmp regA regB => Sys2Proof.Machine.execCmp regA regB s

end Sys2Proof.Machine
end

