-- ==== Sys2Proof/WellFormed.lean ====
section
/-! DEFINITION. Well-formed instructions: every register operand names one of R0 to R7 (30_encoding.md R56, R58).
An immediate is never checked (R57). An instruction that is not well-formed still decodes and still has a meaning:
it faults with OOB_REG (40_engine.md R72). -/

namespace Sys2Proof

/-- The byte names a register: its whole value lies in 0 to 7 (R56). -/
def namesReg (b : Byte) : Bool := decide (b.toNat < 8)

/-- Every slot that R58 marks as a register names one. -/
def Instr.wellFormed : Instr → Bool
  | .ldi reg _ => namesReg reg
  | .prn reg => namesReg reg
  | .hlt => true
  | .mul regA regB => namesReg regA && namesReg regB
  | .push reg => namesReg reg
  | .pop reg => namesReg reg
  | .call reg => namesReg reg
  | .ret => true
  | .add regA regB => namesReg regA && namesReg regB
  | .cmp regA regB => namesReg regA && namesReg regB

end Sys2Proof
end

