-- ==== Sys2Proof/Decode.lean ====
section
/-! DEFINITION. The decoder and, after it, the encoder (30_encoding.md R54 to R64; 40_engine.md R70, R71). -/

namespace Sys2Proof

/-- The three bytes a fetch reads (10_state.md R28): the opcode at pc, the operand slots at pc+1 and pc+2 (00_scope.md
R11). It lives inside one step; no state holds it. -/
structure Latch where
  ir : Byte
  op1 : Byte
  op2 : Byte
deriving DecidableEq, Repr

/-- The latch as the bytes at ascending addresses (R43, R54). -/
def Latch.bytes (l : Latch) : List Byte := [l.ir, l.op1, l.op2]

/-- Why a decode gives no instruction. -/
inductive DecodeError where
  /-- The opcode byte is not in the dispatch table (R63, R71). -/
  | unknownInstruction (ir : Byte)
deriving DecidableEq, Repr

/-- The ten opcode bytes, in the order of the table (R59). -/
def opcodeBytes : List Byte :=
  [0x82#8, 0x47#8, 0x01#8, 0xA2#8, 0x45#8, 0x46#8, 0x50#8, 0x11#8, 0xA0#8, 0xA7#8]

/-- The field N of an opcode byte: how many operand bytes follow (R55). It has no decoding role (R60). -/
def countField (ir : Byte) : BitVec 2 := ir.extractLsb' 6 2

/-- The field OP of an opcode byte (R55). It has no decoding role (R60). -/
def opField (ir : Byte) : BitVec 6 := ir.extractLsb' 0 6

/-- The decoder: it compares all 8 bits of ir with the ten values (R60, R70) and hands the operand bytes on. A slot the
instruction does not use is not looked at (R62). -/
def decode (l : Latch) : Except DecodeError Instr :=
  if l.ir = 0x82#8 then .ok (.ldi l.op1 l.op2)
  else if l.ir = 0x47#8 then .ok (.prn l.op1)
  else if l.ir = 0x01#8 then .ok .hlt
  else if l.ir = 0xA2#8 then .ok (.mul l.op1 l.op2)
  else if l.ir = 0x45#8 then .ok (.push l.op1)
  else if l.ir = 0x46#8 then .ok (.pop l.op1)
  else if l.ir = 0x50#8 then .ok (.call l.op1)
  else if l.ir = 0x11#8 then .ok .ret
  else if l.ir = 0xA0#8 then .ok (.add l.op1 l.op2)
  else if l.ir = 0xA7#8 then .ok (.cmp l.op1 l.op2)
  else .error (.unknownInstruction l.ir)

/-- The bytes of an instruction at ascending addresses: the opcode byte and the operand bytes it uses (R54, R58, R59). -/
def encode : Instr → List Byte
  | .ldi reg imm8 => [0x82#8, reg, imm8]
  | .prn reg => [0x47#8, reg]
  | .hlt => [0x01#8]
  | .mul regA regB => [0xA2#8, regA, regB]
  | .push reg => [0x45#8, reg]
  | .pop reg => [0x46#8, reg]
  | .call reg => [0x50#8, reg]
  | .ret => [0x11#8]
  | .add regA regB => [0xA0#8, regA, regB]
  | .cmp regA regB => [0xA7#8, regA, regB]

/-- The width column of R59, looked up per opcode (R61). -/
def instrWidth : Instr → Nat
  | .ldi _ _ => 3
  | .prn _ => 2
  | .hlt => 1
  | .mul _ _ => 3
  | .push _ => 2
  | .pop _ => 2
  | .call _ => 2
  | .ret => 1
  | .add _ _ => 3
  | .cmp _ _ => 3

/-- Byte k of a table word: bits 8k+7 to 8k, where bits from nbits up are 0. -/
def tableByte (nbits w k : Nat) : Byte := BitVec.ofNat 8 (w % 2 ^ nbits / 2 ^ (8 * k))

/-- The three bytes a table word stands for, the first at the lowest address. -/
def tableLatch (nbits w : Nat) : Latch :=
  ⟨tableByte nbits w 0, tableByte nbits w 1, tableByte nbits w 2⟩

/-- The instruction the decoder reads from a word whose bits are numbered as spec/opcode_table.json numbers them. -/
def decodeTableWord (nbits w : Nat) : Option Instr := (decode (tableLatch nbits w)).toOption

end Sys2Proof
end

