-- ==== Sys2Proof/Machine/Fetch.lean ====
section
/-! DEFINITION. Who may step, the fetch and the decode inside a step (40_engine.md R68 to R71, R82; 10_state.md R28, R29). -/

namespace Sys2Proof.Machine

/-- Why the core has no step: only a Running core takes one (R29, R82). -/
def stopReason (s : State) : Option Fault :=
  match s.status with
  | .running => none
  | .halted => some .coreHalted
  | .faulted rec => some (.coreFaulted rec)

/-- The fetch (R68): the bound is checked on all three addresses before any byte is read, the lowest failing one first. -/
def fetch (s : State) : Except Raised Latch :=
  if 255 < s.pc then .error ⟨.oobAddr, s.pc⟩
  else if 255 < s.pc + 1 then .error ⟨.oobAddr, s.pc + 1⟩
  else if 255 < s.pc + 2 then .error ⟨.oobAddr, s.pc + 2⟩
  else do
    let ir ← memRead s.pc s
    let op1 ← memRead (s.pc + 1) s
    let op2 ← memRead (s.pc + 2) s
    return ⟨ir, op1, op2⟩

/-- The decoder's answer as the step takes it: an opcode outside the table raises UnknownInstruction(ir) (R71, R101). -/
def decodeLatch (l : Latch) : Except Raised Instr :=
  match decode l with
  | .ok i => .ok i
  | .error (.unknownInstruction ir) => .error ⟨.unknownInstruction, ir.toNat⟩

/-- Fetch, then decode: the instruction the step executes, or the fault it raises. -/
def fetchDecode (s : State) : Except Raised Instr := do
  let l ← fetch s
  decodeLatch l

/-- A byte put into memory from outside a step, the registers and the status untouched; no cell exists above 255. It serves
`State.withFetchWord` alone, the model's own device (DESIGN CHOICE, log 3); the host's load of R117 is `loadImage`. -/
def State.pokeByte (s : State) (a : Nat) (v : Byte) : State :=
  if 255 < a then s else { s with mem := s.mem.write a v }

/-- The three bytes of a latch put where the next fetch reads them. -/
def State.pokeLatch (s : State) (l : Latch) : State :=
  ((s.pokeByte s.pc l.ir).pokeByte (s.pc + 1) l.op1).pokeByte (s.pc + 2) l.op2

end Sys2Proof.Machine
end

