-- ==== Sys2Proof/Machine/Step.lean ====
section
/-! DEFINITION. One step of the core (40_engine.md R82). -/

namespace Sys2Proof.Machine

/-- One step (R82): a Running core fetches, decodes and executes; a fault of the fetch or the decode is taken like any
other. In any other status the core has no step. -/
def step (s : State) : Host.Outcome State Fault Refusal :=
  match stopReason s with
  | some f => .fault f
  | none =>
    match fetchDecode s with
    | .error e => .next (takeFault e s)
    | .ok i => exec i s

/-- s with the instruction of a table word stored where `step` fetches its next instruction. It is the model's own
device (DESIGN CHOICE, log 3), no action of the hardware: R117 lets the host write only while the core is in reset. At
a pc above 253 no fetch succeeds (R68) and only cells that exist are written. -/
def State.withFetchWord (s : State) (nbits w : Nat) : State := s.pokeLatch (tableLatch nbits w)

end Sys2Proof.Machine
end

