-- ==== Sys2Proof/Machine/Boot.lean ====
section
/-! DEFINITION. Reset and the host's load (70_reset_and_hazards.md R116, R117, R126; 10_state.md R27, R36). -/

namespace Sys2Proof.Machine

/-- The reset input (R36, R116): every piece of the core's state takes its reset value; memory is not written. It is the
only way out of Halted and Faulted (R30). -/
def hostReset (gpr : ResetGpr) (s : State) : State := State.resetWith gpr s.mem

/-- Bytes put into consecutive cells from an address on (R27, R117). -/
def placeImage : Nat → List Byte → Memory → Memory
  | _, [], m => m
  | a, b :: bs, m => placeImage (a + 1) bs (m.write a b)

/-- The host's load (R117): an image of 1 to 256 bytes at addresses 0 up, over a memory that gives every other cell its
MEM_INIT value. The host refuses a longer image (R117, the spec's decision D20); that it refuses an empty one is read from
the bound 1 <= n (DEDUCED, log 17). -/
def loadImage (image : List Byte) (memInit : Memory) : Option Memory :=
  if 1 ≤ image.length ∧ image.length ≤ 256 then some (placeImage 0 image memInit) else none

/-- The start of a run (R117, R126): a load of all 256 cells and the release of reset; a refused image starts no run. -/
def launch (gpr : ResetGpr) (image : List Byte) (memInit : Memory) : Option State :=
  (loadImage image memInit).map (State.resetWith gpr)

end Sys2Proof.Machine
end

