-- ==== Sys2Proof/Machine/Bus.lean ====
section
/-! DEFINITION. The transactions of one step at the block's interface (10_state.md R36; 20_memory.md R42), as a view of the
step: `step` does not use them. -/

namespace Sys2Proof.Machine

/-- A transaction of the core's ports (R36). The addresses are 8 bits wide: the core checks an address first (R39). -/
inductive Transaction where
  /-- `mem_rd(addr) -> data`. -/
  | memRd (addr data : Byte)
  /-- `mem_wr(addr, data)`. -/
  | memWr (addr data : Byte)
  /-- `out(v)`: one PRN output event. -/
  | outEvent (v : Byte)
deriving DecidableEq, Repr

/-- The read of a cell as a transaction. -/
def readTransaction (s : State) (a : Nat) : Transaction := .memRd (BitVec.ofNat 8 a) (s.readByte a)

/-- The write of a push-type instruction (R42): at sp - 1, and none when the operand or the stack check fails. -/
def pushTransactions (op1 : Byte) (v : State → Reg → Nat) (s : State) : List Transaction :=
  match regOperand op1, spDecrement s with
  | .ok r, .ok s1 => [.memWr (BitVec.ofNat 8 s1.sp) (BitVec.ofNat 8 (v s1 r))]
  | _, _ => []

/-- What an instruction does at the ports beyond its fetch (R42, R84). The read of a pop-type instruction precedes its
stack check (R93, R95, log 15). -/
def dataTransactions (i : Instr) (s : State) : List Transaction :=
  match i with
  | .prn op1 =>
    match regOperand op1 with
    | .ok r => [.outEvent (s.reg r)]
    | .error _ => []
  | .push op1 => pushTransactions op1 (fun s1 r => (s1.reg r).toNat) s
  | .pop op1 =>
    match regOperand op1 with
    | .ok _ => [readTransaction s s.sp]
    | .error _ => []
  | .call op1 => pushTransactions op1 (fun _ _ => s.pc + 2) s
  | .ret => [readTransaction s s.sp]
  | .ldi _ _ => []
  | .hlt => []
  | .mul _ _ => []
  | .add _ _ => []
  | .cmp _ _ => []

/-- The transactions of the step from s, in order: three fetch reads, then the instruction's own (R42). A stopped core and
a failing fetch bound issue none (R36, R68). -/
def stepTransactions (s : State) : List Transaction :=
  match stopReason s, fetch s with
  | none, .ok l =>
    [readTransaction s s.pc, readTransaction s (s.pc + 1), readTransaction s (s.pc + 2)] ++
      match decodeLatch l with
      | .ok i => dataTransactions i s
      | .error _ => []
  | _, _ => []

/-- A transaction's effect on what the outside holds: the memory cells and the output events received so far. -/
def replayTransaction (x : Memory × List Byte) (t : Transaction) : Memory × List Byte :=
  match t with
  | .memRd _ _ => x
  | .memWr a v => (Memory.write x.1 a.toNat v, x.2)
  | .outEvent v => (x.1, x.2 ++ [v])

end Sys2Proof.Machine
end

