-- ==== Sys2Proof/Machine/HostView.lean ====
section
/-! DEFINITION. What the host reads and prints (10_state.md R36, R38; 41_load_output.md R84; 60_exceptions.md R99). -/

namespace Sys2Proof.Machine

/-- The number of a fault code; 0 and 7 are never recorded (R99). -/
def faultNumber : FaultCode → BitVec 3
  | .oobAddr => 1
  | .oobReg => 2
  | .unknownInstruction => 3
  | .unsupportedOperation => 4
  | .stackOverflow => 5
  | .stackUnderflow => 6

/-- The signals fault_code, fault_pc and fault_detail (R36). -/
structure FaultPort where
  code : BitVec 3
  fpc : BitVec 9
  detail : BitVec 9
deriving DecidableEq, Repr

/-- The fault record as the port carries it; none while no record is held (R32, R36, R99). -/
def State.faultPort (s : State) : Option FaultPort :=
  match s.status with
  | .faulted rec => some ⟨faultNumber rec.code, BitVec.ofNat 9 rec.fpc, BitVec.ofNat 9 rec.detail⟩
  | .running => none
  | .halted => none

/-- The decimal digit of a number below 10. -/
def decimalDigit (n : Nat) : Char := Char.ofNat (48 + n)

/-- A byte's decimal digits, unsigned, with no leading zeros (R84). -/
def decimalDigits (v : Byte) : List Char :=
  let n := v.toNat
  if n < 10 then [decimalDigit n]
  else if n < 100 then [decimalDigit (n / 10), decimalDigit (n % 10)]
  else [decimalDigit (n / 100), decimalDigit (n / 10 % 10), decimalDigit (n % 10)]

/-- One PRN value as the host prints it: its digits and one line break, no other formatting (R84, the spec's D18). -/
def printLine (v : Byte) : List Char := decimalDigits v ++ ['\n']

/-- The text the host prints for a state's output log (R33, R38). -/
def State.printed (s : State) : List Char := s.out.flatMap printLine

end Sys2Proof.Machine
end

