-- ==== Sys2Proof/Safety.lean ====
section
/-! DEFINITION. The terms claims use: what a step leaves unchanged, the invariant of the machine, and the end of a run. -/

namespace Sys2Proof.Machine

/-! ## Frames -/

/-- Every register but the listed ones is the same in t as in s. -/
def RegsSameBut (ds : List Reg) (s t : State) : Prop := ∀ j : Reg, j ∉ ds → t.reg j = s.reg j

/-- Every byte of memory is the same in t as in s. -/
def MemSame (s t : State) : Prop := ∀ a : Nat, t.readByte a = s.readByte a

/-- Every byte of memory outside address b is the same in t as in s. -/
def MemSameBut (b : Nat) (s t : State) : Prop := ∀ a : Nat, a ≠ b → t.readByte a = s.readByte a

/-- The latch a fetch at s's pc gives when its bound holds (40_engine.md R68). -/
def State.latch (s : State) : Latch := ⟨s.readByte s.pc, s.readByte (s.pc + 1), s.readByte (s.pc + 2)⟩

/-! ## The invariant -/

/-- FL is 0x00 before the first CMP and one-hot in bits 2:0 after it (10_state.md R22 to R24). -/
def flagsLegal (fl : Byte) : Bool := decide (fl ∈ [0x00#8, 0x04#8, 0x02#8, 0x01#8])

/-- The stopped state bears its record out: the pc is the faulting one, the detail lies in its code's range, and the
bytes and the stack pointer that raised the fault still stand (60_exceptions.md R99, R100, R104). -/
def recordExplained (s : State) (rec : FaultRecord) : Bool :=
  decide (rec.fpc = s.pc) &&
  match rec.code with
  | .oobAddr => decide (254 ≤ s.pc ∧ rec.detail = 256)
  | .oobReg => decide (s.pc ≤ 253 ∧ 8 ≤ rec.detail ∧ rec.detail ≤ 255 ∧
      (rec.detail = s.latch.op1.toNat ∨ rec.detail = s.latch.op2.toNat))
  | .unknownInstruction => decide (s.pc ≤ 253 ∧ s.latch.ir ∉ opcodeBytes ∧ rec.detail = s.latch.ir.toNat)
  | .unsupportedOperation => false
  | .stackOverflow => decide (s.pc ≤ 253 ∧ s.latch.ir ∈ [0x45#8, 0x50#8] ∧ s.sp = 0 ∧ rec.detail = 0)
  | .stackUnderflow => decide (s.pc ≤ 253 ∧ s.latch.ir ∈ [0x46#8, 0x11#8] ∧ rec.detail = 255)

/-- The status fits the state: a halted core stands at a HLT it could fetch (R76, R79), a faulted one explains its record. -/
def statusExplained (s : State) : Bool :=
  match s.status with
  | .running => true
  | .halted => decide (s.pc ≤ 253 ∧ s.latch.ir = 0x01#8)
  | .faulted rec => recordExplained s rec

/-- The invariant: memory in its canonical form, pc at most 256 (10_state.md R19), FL legal, the status explained. -/
def State.legal (s : State) : Bool :=
  s.mem.wf && decide (s.pc ≤ 256) && flagsLegal s.fl && statusExplained s

/-! ## Runs -/

/-- n steps from s lead to t. -/
def RunsTo (s : State) (n : Nat) (t : State) : Prop := Sys2Proof.core.run n s = .next t

/-- t is the end of the run from s: a reached state whose status is not Running (40_engine.md R81). A core that has
stopped takes no step, so it is the first such state. -/
def RunEnds (s t : State) : Prop := (∃ n, RunsTo s n t) ∧ t.status ≠ .running

/-- "The program halts": the status is Halted, with no fault record, in some reached state (R81). -/
def Halts (s : State) : Prop := ∃ n t, RunsTo s n t ∧ t.status = .halted

/-- A safe run: no reached state is Faulted. -/
def SafeRun (s : State) : Prop := ∀ n t, RunsTo s n t → ∀ rec, t.status ≠ .faulted rec

end Sys2Proof.Machine
end

