-- ==== Sys2Proof/Certificates/Slice0/Obligations.lean ====
section
/-! DEFINITION. The statements about the model, each with the rule of spec/ it formalises. They are about every state, those
no run reaches among them; where memory's canonical form or the whole invariant is needed it is a premise, and
`Obligations.StepKeepsLegal` and `Obligations.ResetIsLegal` say that it holds in every run. `exec` is an instruction's own
rule; that the core is Running is checked by `step` (log 7). -/

open Sys2Proof Sys2Proof.Machine

/-! ## Words the statements share -/

/-- s with a fault recorded and nothing else changed (60_exceptions.md R104). -/
def Sys2Proof.Claims.recording (s : State) (code : FaultCode) (detail : Nat) : State :=
  { s with status := .faulted ⟨code, s.pc, detail⟩ }

/-- Fetch exceptions of every instruction (40_engine.md R68): from pc 254 up the step records OOB_ADDR, and its detail is the
lowest of pc, pc+1 and pc+2 above 255. -/
def Sys2Proof.Claims.FetchFaultsPast253 : Prop :=
  ∀ s : State, s.status = .running → 254 ≤ s.pc →
    ∃ a, (a = s.pc ∨ a = s.pc + 1 ∨ a = s.pc + 2) ∧ 255 < a ∧
      (∀ b, (b = s.pc ∨ b = s.pc + 1 ∨ b = s.pc + 2) → 255 < b → a ≤ b) ∧
      step s = .next (Claims.recording s .oobAddr a)

/-- A register operand byte above 7 makes the instruction record OOB_REG with the byte and do nothing else (R56, R72). -/
def Sys2Proof.Claims.RejectsRegister (f : Byte → Instr) : Prop :=
  ∀ (op1 : Byte) (s : State), 7 < op1.toNat → exec (f op1) s = .next (Claims.recording s .oobReg op1.toNat)

/-- The same for two register operands, op1 checked before op2 (R72). -/
def Sys2Proof.Claims.RejectsRegisters (f : Byte → Byte → Instr) : Prop :=
  ∀ (op1 op2 : Byte) (s : State),
    (7 < op1.toNat → exec (f op1 op2) s = .next (Claims.recording s .oobReg op1.toNat)) ∧
    (op1.toNat < 8 → 7 < op2.toNat → exec (f op1 op2) s = .next (Claims.recording s .oobReg op2.toNat))

/-- The operand bytes that R58 marks as registers, op1 before op2, read off the opcode byte alone. -/
def Sys2Proof.Claims.registerSlots (l : Latch) : List Byte :=
  if l.ir ∈ [0x82#8, 0x47#8, 0x45#8, 0x46#8, 0x50#8] then [l.op1]
  else if l.ir ∈ [0xA0#8, 0xA2#8, 0xA7#8] then [l.op1, l.op2]
  else []

/-- A printed line is a byte's decimal digits and one line break: only digits, no leading zero, and their value is the
byte's unsigned value (41_load_output.md R84). -/
def Sys2Proof.Claims.PrintsDecimal : Prop :=
  ∀ v : Byte, ∃ ds : List Char, printLine v = ds ++ ['\n'] ∧ ds ≠ [] ∧ (∀ c ∈ ds, 48 ≤ c.toNat ∧ c.toNat ≤ 57) ∧
    (ds.head? = some '0' → ds = ['0']) ∧ ds.foldl (fun n c => 10 * n + (c.toNat - 48)) 0 = v.toNat

/-! ## Encoding and decoding -/

/-- 30_encoding.md section 3 (R58, R59): the ten opcode bytes, written out, decode to their instructions with their operand
bytes in their slots, whatever an unused slot holds. -/
def Obligations.OpcodeBytesDecode : Prop :=
  ∀ op1 op2 : Byte,
    decode ⟨0b10000010#8, op1, op2⟩ = .ok (.ldi op1 op2) ∧ decode ⟨0b01000111#8, op1, op2⟩ = .ok (.prn op1) ∧
    decode ⟨0b00000001#8, op1, op2⟩ = .ok .hlt ∧ decode ⟨0b10100010#8, op1, op2⟩ = .ok (.mul op1 op2) ∧
    decode ⟨0b01000101#8, op1, op2⟩ = .ok (.push op1) ∧ decode ⟨0b01000110#8, op1, op2⟩ = .ok (.pop op1) ∧
    decode ⟨0b01010000#8, op1, op2⟩ = .ok (.call op1) ∧ decode ⟨0b00010001#8, op1, op2⟩ = .ok .ret ∧
    decode ⟨0b10100000#8, op1, op2⟩ = .ok (.add op1 op2) ∧ decode ⟨0b10100111#8, op1, op2⟩ = .ok (.cmp op1 op2)

/-- R60: all 8 bits of ir select: a byte selects an instruction exactly when it is one of the ten, and a byte that shares
only its OP field with a row selects nothing. -/
def Obligations.WholeByteSelects : Prop :=
  (∀ l : Latch, (∃ i, decode l = .ok i) ↔ l.ir ∈ opcodeBytes) ∧
  (∀ (l : Latch) (row : Byte), row ∈ opcodeBytes → opField l.ir = opField row → countField l.ir ≠ countField row →
    decode l = .error (.unknownInstruction l.ir)) ∧
  (∀ op1 op2 : Byte, ∀ ir ∈ [0x02#8, 0x42#8, 0xC2#8], decode ⟨ir, op1, op2⟩ = .error (.unknownInstruction ir))

/-- The decoder and the encoder agree for every instruction and every latch: a latch decodes to i exactly when the bytes of i
are its first bytes. No bit of an encoding is dropped, and no two instructions share a word. -/
def Obligations.DecodeInvertsEncode : Prop :=
  ∀ (l : Latch) (i : Instr), decode l = .ok i ↔ encode i <+: l.bytes

/-- R62: a slot marked "not used" may hold any byte, and its address must still lie in range. -/
def Obligations.UnusedSlotsIgnored : Prop :=
  (∀ ir ∈ [0x47#8, 0x45#8, 0x46#8, 0x50#8], ∀ op1 x y : Byte, decode ⟨ir, op1, x⟩ = decode ⟨ir, op1, y⟩) ∧
  (∀ ir ∈ [0x01#8, 0x11#8], ∀ x y x' y' : Byte, decode ⟨ir, x, y⟩ = decode ⟨ir, x', y'⟩) ∧
  Claims.FetchFaultsPast253

/-! ## The step -/

/-- R68: every step begins with the fetch of three bytes in order; it succeeds exactly when pc <= 253. -/
def Obligations.FetchReadsThreeBytes : Prop :=
  (∀ s : State, s.pc ≤ 253 → fetch s = .ok ⟨s.readByte s.pc, s.readByte (s.pc + 1), s.readByte (s.pc + 2)⟩) ∧
  (∀ s : State, s.status = .running → s.pc ≤ 253 →
    [readTransaction s s.pc, readTransaction s (s.pc + 1), readTransaction s (s.pc + 2)] <+: stepTransactions s) ∧
  (∀ s : State, 254 ≤ s.pc → stepTransactions s = []) ∧
  Claims.FetchFaultsPast253

/-- 40_engine.md section 5 (R82): when the bytes at the pc of a Running core decode to i, its step is exec of i at that state;
nothing is added around exec, whose meaning moves the pc. -/
def Obligations.StepRunsDecodedInstruction : Prop :=
  ∀ (s : State) (i : Instr), s.status = .running → s.pc ≤ 253 →
    decode ⟨s.readByte s.pc, s.readByte (s.pc + 1), s.readByte (s.pc + 2)⟩ = .ok i → step s = exec i s

/-- R29: only a Running core takes a step; Halted and Faulted are final. -/
def Obligations.StoppedCoreTakesNoStep : Prop :=
  (∀ s : State, s.status = .halted → step s = .fault .coreHalted) ∧
  (∀ (s : State) (rec : FaultRecord), s.status = .faulted rec → step s = .fault (.coreFaulted rec)) ∧
  (∀ s t : State, step s = .next t → s.status = .running)

/-- 40_engine.md section 5 (R82): the step is a total function on Running states: it never stops and never refuses. -/
def Obligations.RunningCoreAlwaysSteps : Prop :=
  ∀ s : State, s.status = .running → ∃ t, step s = .next t

/-- R63, R101: an opcode byte that is not one of the ten records UNKNOWN_INSTRUCTION with the byte, and nothing else changes;
246 bytes are such, among them every byte with N = 3, 0x00, 0x54, 0x55 and 0x56. -/
def Obligations.UnlistedOpcodeFaults : Prop :=
  (∀ s : State, s.status = .running → s.pc ≤ 253 → s.readByte s.pc ∉ opcodeBytes →
    step s = .next (Claims.recording s .unknownInstruction (s.readByte s.pc).toNat)) ∧
  (∀ ir : Byte, countField ir = 3#2 → ir ∉ opcodeBytes) ∧
  (∀ ir ∈ [0x00#8, 0x54#8, 0x55#8, 0x56#8], ir ∉ opcodeBytes) ∧
  ((List.range 256).filter fun n => decide (BitVec.ofNat 8 n ∉ opcodeBytes)).length = 246

/-! ## The instructions -/

/-- LDI (R83). -/
def Obligations.LdiLoadsImmediate : Prop :=
  (∀ op1 op2 : Byte, decode ⟨0x82#8, op1, op2⟩ = .ok (.ldi op1 op2) ∧ encode (.ldi op1 op2) = [0x82#8, op1, op2]) ∧
  (∀ (op1 imm8 : Byte) (s : State) (h : op1.toNat < 8), ∃ t, exec (.ldi op1 imm8) s = .next t ∧
    t.reg ⟨op1.toNat, h⟩ = imm8 ∧ RegsSameBut [⟨op1.toNat, h⟩] s t ∧ t.pc = s.pc + 3 ∧
    t.fl = s.fl ∧ t.status = s.status ∧ t.out = s.out ∧ MemSame s t) ∧
  (∀ imm8 : Byte, Claims.RejectsRegister fun op1 => .ldi op1 imm8) ∧ Claims.FetchFaultsPast253

/-- PRN (R84). -/
def Obligations.PrnAppendsOutput : Prop :=
  (∀ op1 op2 : Byte, decode ⟨0x47#8, op1, op2⟩ = .ok (.prn op1) ∧ encode (.prn op1) = [0x47#8, op1]) ∧
  (∀ (op1 : Byte) (s : State) (h : op1.toNat < 8), ∃ t, exec (.prn op1) s = .next t ∧
    t.out = s.out ++ [s.reg ⟨op1.toNat, h⟩] ∧ t.printed = s.printed ++ printLine (s.reg ⟨op1.toNat, h⟩) ∧
    t.pc = s.pc + 2 ∧ RegsSameBut [] s t ∧ t.fl = s.fl ∧ t.status = s.status ∧ MemSame s t) ∧
  Claims.PrintsDecimal ∧ Claims.RejectsRegister .prn ∧ Claims.FetchFaultsPast253

/-- HLT (R79): status Halted and nothing else; after it the core takes no step. That pc stays at the HLT is the spec's own
decision D17. -/
def Obligations.HltHalts : Prop :=
  (∀ op1 op2 : Byte, decode ⟨0x01#8, op1, op2⟩ = .ok .hlt ∧ encode .hlt = [0x01#8]) ∧
  (∀ s : State, ∃ t, exec .hlt s = .next t ∧ t.status = .halted ∧ t.pc = s.pc ∧ RegsSameBut [] s t ∧ t.fl = s.fl ∧
    t.out = s.out ∧ MemSame s t ∧ step t = .fault .coreHalted) ∧
  Claims.FetchFaultsPast253

/-- ADD (R87). -/
def Obligations.AddWritesSumMod256 : Prop :=
  (∀ op1 op2 : Byte, decode ⟨0xA0#8, op1, op2⟩ = .ok (.add op1 op2) ∧ encode (.add op1 op2) = [0xA0#8, op1, op2]) ∧
  (∀ (op1 op2 : Byte) (s : State) (h1 : op1.toNat < 8) (h2 : op2.toNat < 8), ∃ t, exec (.add op1 op2) s = .next t ∧
    (t.reg ⟨op1.toNat, h1⟩).toNat = ((s.reg ⟨op1.toNat, h1⟩).toNat + (s.reg ⟨op2.toNat, h2⟩).toNat) % 256 ∧
    RegsSameBut [⟨op1.toNat, h1⟩] s t ∧ t.pc = s.pc + 3 ∧
    t.fl = s.fl ∧ t.status = s.status ∧ t.out = s.out ∧ MemSame s t) ∧
  Claims.RejectsRegisters .add ∧ Claims.FetchFaultsPast253

/-- MUL (R88). -/
def Obligations.MulWritesProductMod256 : Prop :=
  (∀ op1 op2 : Byte, decode ⟨0xA2#8, op1, op2⟩ = .ok (.mul op1 op2) ∧ encode (.mul op1 op2) = [0xA2#8, op1, op2]) ∧
  (∀ (op1 op2 : Byte) (s : State) (h1 : op1.toNat < 8) (h2 : op2.toNat < 8), ∃ t, exec (.mul op1 op2) s = .next t ∧
    (t.reg ⟨op1.toNat, h1⟩).toNat = ((s.reg ⟨op1.toNat, h1⟩).toNat * (s.reg ⟨op2.toNat, h2⟩).toNat) % 256 ∧
    RegsSameBut [⟨op1.toNat, h1⟩] s t ∧ t.pc = s.pc + 3 ∧
    t.fl = s.fl ∧ t.status = s.status ∧ t.out = s.out ∧ MemSame s t) ∧
  Claims.RejectsRegisters .mul ∧ Claims.FetchFaultsPast253

/-- CMP (R89): FL is written completely, L, G or E by the unsigned comparison. -/
def Obligations.CmpSetsOneFlag : Prop :=
  (∀ op1 op2 : Byte, decode ⟨0xA7#8, op1, op2⟩ = .ok (.cmp op1 op2) ∧ encode (.cmp op1 op2) = [0xA7#8, op1, op2]) ∧
  (∀ (op1 op2 : Byte) (s : State) (h1 : op1.toNat < 8) (h2 : op2.toNat < 8), ∃ t, exec (.cmp op1 op2) s = .next t ∧
    ((s.reg ⟨op1.toNat, h1⟩).toNat < (s.reg ⟨op2.toNat, h2⟩).toNat → t.fl = 0b00000100#8) ∧
    ((s.reg ⟨op2.toNat, h2⟩).toNat < (s.reg ⟨op1.toNat, h1⟩).toNat → t.fl = 0b00000010#8) ∧
    (s.reg ⟨op1.toNat, h1⟩ = s.reg ⟨op2.toNat, h2⟩ → t.fl = 0b00000001#8) ∧
    RegsSameBut [] s t ∧ t.pc = s.pc + 3 ∧ t.status = s.status ∧ t.out = s.out ∧ MemSame s t) ∧
  Claims.RejectsRegisters .cmp ∧ Claims.FetchFaultsPast253

/-- PUSH (R92): the decrement, then the store at the decremented address. That PUSH R7 stores sp - 1 is the spec's own
decision D11. -/
def Obligations.PushStoresBelow : Prop :=
  (∀ op1 op2 : Byte, decode ⟨0x45#8, op1, op2⟩ = .ok (.push op1) ∧ encode (.push op1) = [0x45#8, op1]) ∧
  (∀ (op1 : Byte) (s : State) (h : op1.toNat < 8), s.mem.wf = true → s.sp ≠ 0 → ∃ t, exec (.push op1) s = .next t ∧
    (t.reg 7).toNat = s.sp - 1 ∧ RegsSameBut [7] s t ∧
    t.readByte (s.sp - 1) = (if op1 = 7#8 then BitVec.ofNat 8 (s.sp - 1) else s.reg ⟨op1.toNat, h⟩) ∧
    MemSameBut (s.sp - 1) s t ∧ t.pc = s.pc + 2 ∧ t.fl = s.fl ∧ t.status = s.status ∧ t.out = s.out) ∧
  (∀ (op1 : Byte) (s : State), op1.toNat < 8 → s.sp = 0 →
    exec (.push op1) s = .next (Claims.recording s .stackOverflow 0)) ∧
  Claims.RejectsRegister .push ∧ Claims.FetchFaultsPast253

/-- POP (R93): read, write the destination, then increment R7 as it then stands. That POP R7 leaves v + 1 is the spec's own
decision D12. -/
def Obligations.PopLoadsThenRaises : Prop :=
  (∀ op1 op2 : Byte, decode ⟨0x46#8, op1, op2⟩ = .ok (.pop op1) ∧ encode (.pop op1) = [0x46#8, op1]) ∧
  (∀ (op1 : Byte) (s : State) (h : op1.toNat < 8) (p : Nat),
    p = (if op1 = 7#8 then (s.readByte s.sp).toNat else s.sp) → p ≠ 255 → ∃ t, exec (.pop op1) s = .next t ∧
    (op1 ≠ 7#8 → t.reg ⟨op1.toNat, h⟩ = s.readByte s.sp) ∧ (t.reg 7).toNat = p + 1 ∧
    RegsSameBut [⟨op1.toNat, h⟩, 7] s t ∧ t.pc = s.pc + 2 ∧
    t.fl = s.fl ∧ t.status = s.status ∧ t.out = s.out ∧ MemSame s t) ∧
  (∀ (op1 : Byte) (s : State), op1.toNat < 8 → (if op1 = 7#8 then (s.readByte s.sp).toNat else s.sp) = 255 →
    exec (.pop op1) s = .next (Claims.recording s .stackUnderflow 255)) ∧
  Claims.RejectsRegister .pop ∧ Claims.FetchFaultsPast253

/-- CALL (R94): the decrement, the store of the return address, the jump. That CALL R7 jumps to sp - 1 is the spec's own
decision D13. -/
def Obligations.CallStoresReturnAddress : Prop :=
  (∀ op1 op2 : Byte, decode ⟨0x50#8, op1, op2⟩ = .ok (.call op1) ∧ encode (.call op1) = [0x50#8, op1]) ∧
  (∀ (op1 : Byte) (s : State) (h : op1.toNat < 8), s.mem.wf = true → s.sp ≠ 0 → ∃ t, exec (.call op1) s = .next t ∧
    (t.reg 7).toNat = s.sp - 1 ∧ RegsSameBut [7] s t ∧
    t.readByte (s.sp - 1) = BitVec.ofNat 8 (s.pc + 2) ∧ (s.pc ≤ 253 → (t.readByte (s.sp - 1)).toNat = s.pc + 2) ∧
    MemSameBut (s.sp - 1) s t ∧
    t.pc = (if op1 = 7#8 then s.sp - 1 else (s.reg ⟨op1.toNat, h⟩).toNat) ∧
    t.fl = s.fl ∧ t.status = s.status ∧ t.out = s.out) ∧
  (∀ (op1 : Byte) (s : State), op1.toNat < 8 → s.sp = 0 →
    exec (.call op1) s = .next (Claims.recording s .stackOverflow 0)) ∧
  Claims.RejectsRegister .call ∧ Claims.FetchFaultsPast253

/-- RET (R95). -/
def Obligations.RetPopsProgramCounter : Prop :=
  (∀ op1 op2 : Byte, decode ⟨0x11#8, op1, op2⟩ = .ok .ret ∧ encode .ret = [0x11#8]) ∧
  (∀ s : State, s.sp ≠ 255 → ∃ t, exec .ret s = .next t ∧ t.pc = (s.readByte s.sp).toNat ∧ (t.reg 7).toNat = s.sp + 1 ∧
    RegsSameBut [7] s t ∧ t.fl = s.fl ∧ t.status = s.status ∧ t.out = s.out ∧ MemSame s t) ∧
  (∀ s : State, s.sp = 255 → exec .ret s = .next (Claims.recording s .stackUnderflow 255)) ∧
  Claims.FetchFaultsPast253

/-! ## Sequences of two instructions -/

/-- 95_test_vectors.md W3: LDI r, v and then PRN r outputs exactly v. -/
def Obligations.LdiThenPrnOutputs : Prop :=
  ∀ (op1 v : Byte) (s : State), op1.toNat < 8 →
    ∃ t u, exec (.ldi op1 v) s = .next t ∧ exec (.prn op1) t = .next u ∧ u.out = s.out ++ [v] ∧ u.pc = s.pc + 5

/-- 95_test_vectors.md W7: PUSH and then POP to a register other than R7 moves the pushed value unchanged and restores the
stack pointer. For PUSH R7 the pushed value is sp - 1, the spec's own decision D11. -/
def Obligations.PushPopRoundTrip : Prop :=
  ∀ (op1 op2 : Byte) (s : State) (h1 : op1.toNat < 8) (h2 : op2.toNat < 8), s.mem.wf = true → s.sp ≠ 0 → op2 ≠ 7#8 →
    ∃ t u, exec (.push op1) s = .next t ∧ exec (.pop op2) t = .next u ∧ u.sp = s.sp ∧
      u.reg ⟨op2.toNat, h2⟩ = (if op1 = 7#8 then BitVec.ofNat 8 (s.sp - 1) else s.reg ⟨op1.toNat, h1⟩) ∧
      RegsSameBut [⟨op2.toNat, h2⟩] s u ∧ u.pc = s.pc + 4

/-- 95_test_vectors.md W8 and 43_stack_control.md section 3 (R96): a CALL and a RET that finds the stack as the CALL left it come back to the byte
after the CALL with every register as before. -/
def Obligations.CallRetRoundTrip : Prop :=
  ∀ (op1 : Byte) (s : State), op1.toNat < 8 → s.mem.wf = true → s.sp ≠ 0 → s.pc ≤ 253 →
    ∃ t u, exec (.call op1) s = .next t ∧ exec .ret t = .next u ∧ u.pc = s.pc + 2 ∧ RegsSameBut [] s u ∧ u.fl = s.fl

/-- 20_memory.md section 4 (R52): a PUSH that stores onto a byte of the next instruction changes what the next step fetches. -/
def Obligations.StoredByteIsFetchedNext : Prop :=
  ∀ (s : State) (k : Nat) (h : s.latch.op1.toNat < 8), s.status = .running → s.mem.wf = true → s.pc ≤ 251 →
    s.latch.ir = 0x45#8 → k < 3 → s.sp = s.pc + 3 + k →
    ∃ t l, step s = .next t ∧ fetch t = .ok l ∧
      l.bytes[k]? = some (if s.latch.op1 = 7#8 then BitVec.ofNat 8 (s.sp - 1) else s.reg ⟨s.latch.op1.toNat, h⟩)

/-! ## Memory and registers -/

/-- 20_memory.md section 1 (R39, R40): a write in range stores v mod 256, is read back, and leaves every other cell; both
primitives raise OutOfBounds above 255. Addresses are naturals (log 10). -/
def Obligations.MemoryReadAfterWrite : Prop :=
  (∀ (s : State) (a v : Nat), s.mem.wf = true → a ≤ 255 → ∃ t, memWrite a v s = .ok t ∧
    (∃ w : Byte, memRead a t = .ok w ∧ w.toNat = v % 256) ∧ (∀ b, b ≠ a → memRead b t = memRead b s)) ∧
  (∀ (s : State) (a v : Nat), 255 < a → memRead a s = .error ⟨.oobAddr, a⟩ ∧ memWrite a v s = .error ⟨.oobAddr, a⟩)

/-- Two memories in canonical form with the same 256 bytes are the same data (the model's own form, log 2). -/
def Obligations.CanonicalMemoryUnique : Prop :=
  ∀ m n : Memory, m.wf = true → n.wf = true → (∀ a, a ≤ 255 → m.read a = n.read a) → m = n

/-- 10_state.md R37: a register write stores its value mod 256, in that register only. -/
def Obligations.RegisterWriteReadsBack : Prop :=
  ∀ (s : State) (i : Reg) (v : Nat), ((s.writeReg i v).reg i).toNat = v % 256 ∧ RegsSameBut [i] s (s.writeReg i v)

/-! ## Rules about the whole machine -/

/-- The invariant (10_state.md R19, R22; 60_exceptions.md R99, R100, R104; 20_memory.md R47): every step from a legal state leads
to a legal state: memory canonical, pc at most 256, FL 0x00 or one-hot, a stopped status explained by the state. The
canonical form is the model's own (log 2). -/
def Obligations.StepKeepsLegal : Prop :=
  ∀ s t : State, s.legal = true → step s = .next t → t.legal = true

/-- The state after reset over any canonical memory, and so `State.reset` (whose open values are the model's, log 1 and log 2),
meets the invariant. -/
def Obligations.ResetIsLegal : Prop :=
  (∀ (gpr : ResetGpr) (mem : Memory), mem.wf = true → (State.resetWith gpr mem).legal = true) ∧ State.reset.legal = true

/-- R104: a fault is precise and final. -/
def Obligations.FaultsArePrecise : Prop :=
  ∀ (s t : State) (rec : FaultRecord), step s = .next t → t.status = .faulted rec →
    rec.fpc = s.pc ∧ t = { s with status := .faulted rec } ∧ step t = .fault (.coreFaulted rec)

/-- R105: the order of the faults of one step. -/
def Obligations.FaultPriority : Prop :=
  ∀ s : State, s.status = .running →
    (254 ≤ s.pc → ∃ a, step s = .next (Claims.recording s .oobAddr a)) ∧
    (s.pc ≤ 253 → s.latch.ir ∉ opcodeBytes →
      step s = .next (Claims.recording s .unknownInstruction s.latch.ir.toNat)) ∧
    (s.pc ≤ 253 → s.latch.ir ∈ opcodeBytes → ∀ b, (Claims.registerSlots s.latch).find? (fun b => decide (7 < b.toNat)) = some b →
      step s = .next (Claims.recording s .oobReg b.toNat)) ∧
    (s.pc ≤ 253 → s.latch.ir ∈ opcodeBytes → (∀ b ∈ Claims.registerSlots s.latch, b.toNat ≤ 7) →
      ∀ t rec, step s = .next t → t.status = .faulted rec → rec.code = .stackOverflow ∨ rec.code = .stackUnderflow) ∧
    Claims.FetchFaultsPast253

/-- R103: which instruction raises which stack fault, and when. -/
def Obligations.StackFaultsExactlyAtBounds : Prop :=
  ∀ (i : Instr) (s t : State), s.status = .running → i.wellFormed = true → exec i s = .next t →
    ((∃ p d, t.status = .faulted ⟨.stackOverflow, p, d⟩) ↔ s.sp = 0 ∧ ∃ r, i = .push r ∨ i = .call r) ∧
    ((∃ p d, t.status = .faulted ⟨.stackUnderflow, p, d⟩) ↔
      (i = .ret ∧ s.sp = 255) ∨ (∃ r, i = .pop r ∧ (if r = 7#8 then (s.readByte s.sp).toNat else s.sp) = 255))

/-- R23: only CMP writes FL, one-hot, and no instruction reads it: another FL changes nothing but FL. -/
def Obligations.OnlyCmpTouchesFlags : Prop :=
  (∀ (i : Instr) (s t : State), exec i s = .next t → t.fl ≠ s.fl → ∃ regA regB, i = .cmp regA regB) ∧
  (∀ (regA regB : Byte) (s t : State), (Instr.cmp regA regB).wellFormed = true → exec (.cmp regA regB) s = .next t →
    t.fl ∈ [0x04#8, 0x02#8, 0x01#8]) ∧
  (∀ (s t : State) (fl : Byte), step s = .next t → ∃ fl', step { s with fl := fl } = .next { t with fl := fl' })

/-- 43_stack_control.md section 3 (R97) and 40_engine.md section 3 (R74, R76): a step that stops keeps the pc, CALL and RET set it to a
byte, and every other instruction that runs on advances it by its width of 2 or 3. -/
def Obligations.OnlyCallRetTransferControl : Prop :=
  ∀ (i : Instr) (s t : State), s.status = .running → exec i s = .next t →
    (t.status ≠ .running → t.pc = s.pc) ∧
    (t.status = .running → (i = .ret ∨ ∃ r, i = .call r) → t.pc ≤ 255) ∧
    (t.status = .running → i ≠ .ret → (∀ r, i ≠ .call r) →
      t.pc = s.pc + instrWidth i ∧ (instrWidth i = 2 ∨ instrWidth i = 3))

/-- 20_memory.md section 1 (R42): a step changes at most the one cell at sp - 1, and only when it is a PUSH or a CALL with sp
not 0. -/
def Obligations.OnlyPushCallWriteMemory : Prop :=
  ∀ (s t : State) (a : Nat), s.mem.wf = true → step s = .next t → t.readByte a ≠ s.readByte a →
    (s.latch.ir = 0x45#8 ∨ s.latch.ir = 0x50#8) ∧ s.sp ≠ 0 ∧ a = s.sp - 1

/-- R33: PRN appends one value to the output log, no other instruction touches it, it resets to empty, and the host prints one
line a value. -/
def Obligations.OutputLogGrowsOnlyByPrn : Prop :=
  (∀ (op1 : Byte) (s : State) (h : op1.toNat < 8), ∃ t, exec (.prn op1) s = .next t ∧
    t.out = s.out ++ [s.reg ⟨op1.toNat, h⟩]) ∧
  (∀ (i : Instr) (s t : State), exec i s = .next t → t.out ≠ s.out → ∃ op1, i = .prn op1) ∧
  (∀ (gpr : ResetGpr) (s : State), (hostReset gpr s).out = []) ∧
  (∀ s : State, s.printed = (s.out.map printLine).flatten) ∧ Claims.PrintsDecimal

/-- R30: only HLT and a fault write the run status, and only a reset sets it back to Running. -/
def Obligations.StatusWrittenOnlyByHltAndFaults : Prop :=
  (∀ (i : Instr) (s t : State), s.status = .running → exec i s = .next t → (t.status = .halted ↔ i = .hlt)) ∧
  (∀ s t : State, step s = .next t → t.status ≠ .running →
    (t.status = .halted ∧ s.latch.ir = 0x01#8) ∨ ∃ code detail, t = Claims.recording s code detail) ∧
  (∀ s t : State, s.status ≠ .running → step s ≠ .next t) ∧
  (∀ (gpr : ResetGpr) (s : State), (hostReset gpr s).status = .running)

/-- 10_state.md section 1 (R16): a register that differs after an instruction is one its row of the table lists as written. -/
def Obligations.RegistersChangeOnlyAsListed : Prop :=
  ∀ (i : Instr) (s t : State) (j : Reg), exec i s = .next t → t.reg j ≠ s.reg j →
    match i with
    | .ldi reg _ => reg.toNat = j.val
    | .mul regA _ => regA.toNat = j.val
    | .add regA _ => regA.toNat = j.val
    | .push _ => j = 7
    | .pop reg => reg.toNat = j.val ∨ j = 7
    | .call _ => j = 7
    | .ret => j = 7
    | .prn _ => False
    | .hlt => False
    | .cmp _ _ => False

/-- 42_alu.md section 1 (R86) and 60_exceptions.md section 1 (R102): the ALU raises UnsupportedOperation on every selector but its three,
whose numbers are the model's choice (log 9), and no step records it. -/
def Obligations.UnsupportedOperationUnreachable : Prop :=
  (∀ (sel : Byte) (a b : Reg) (s : State), sel ≠ aluAdd → sel ≠ aluMul → sel ≠ aluCmp →
    aluApply sel a b s = .error ⟨.unsupportedOperation, sel.toNat⟩) ∧
  (∀ (s t : State) (rec : FaultRecord), step s = .next t → t.status = .faulted rec → rec.code ≠ .unsupportedOperation)

/-! ## Reset, load, ports and runs -/

/-- R116: what a reset sets, from any state and for every RESET_GPR. FL = 0x00 is the spec's own decision D15. -/
def Obligations.ResetSetsState : Prop :=
  ∀ (gpr : ResetGpr) (s : State), ∃ t, t = hostReset gpr s ∧ t.pc = 0 ∧ t.reg 7 = 0xF4#8 ∧ t.fl = 0x00#8 ∧ t.status = .running ∧
    t.out = [] ∧ t.reg 0 = gpr.r0 ∧ t.reg 1 = gpr.r1 ∧ t.reg 2 = gpr.r2 ∧ t.reg 3 = gpr.r3 ∧ t.reg 4 = gpr.r4 ∧
    t.reg 5 = gpr.r5 ∧ t.reg 6 = gpr.r6 ∧ MemSame s t ∧ (stepTransactions t).head? = some (readTransaction t 0)

/-- 10_state.md section 4 and 70_reset_and_hazards.md section 1 (R27, R116, R117): the start of a run, for every image of 1 to 256 bytes and
every MEM_INIT, with every other piece of state at its reset value (FL = 0x00 is the spec's own decision D15) and R0 to R6 at
RESET_GPR. That memory is then canonical is about the model's own form (DESIGN CHOICE, log 2). Refusing a longer image is the
spec's own decision D20, and refusing an empty one is inferred from its 1 <= n (DEDUCED, log 17). -/
def Obligations.LaunchLoadsImage : Prop :=
  ∀ (gpr : ResetGpr) (image : List Byte) (memInit : Memory), memInit.wf = true →
    (1 ≤ image.length → image.length ≤ 256 → ∃ s, launch gpr image memInit = some s ∧
      (∀ k v, image[k]? = some v → s.readByte k = v) ∧
      (∀ a, image.length ≤ a → s.readByte a = memInit.read a) ∧ s.mem.wf = true ∧
      s.pc = 0 ∧ s.reg 7 = 0xF4#8 ∧ s.fl = 0x00#8 ∧ s.status = .running ∧ s.out = [] ∧
      s.reg 0 = gpr.r0 ∧ s.reg 1 = gpr.r1 ∧ s.reg 2 = gpr.r2 ∧ s.reg 3 = gpr.r3 ∧ s.reg 4 = gpr.r4 ∧
      s.reg 5 = gpr.r5 ∧ s.reg 6 = gpr.r6) ∧
    (image = [] ∨ 256 < image.length → launch gpr image memInit = none)

/-- 20_memory.md section 1 (R42) and 10_state.md section 6 (R36): a step's transactions are at most its three fetch reads and one more, and
replayed outside the core they give exactly the step's memory and output. -/
def Obligations.TransactionsExplainStep : Prop :=
  ∀ s t : State, step s = .next t →
    (stepTransactions s).length ≤ 4 ∧ (stepTransactions s).foldl replayTransaction (s.mem, s.out) = (t.mem, t.out)

/-- 60_exceptions.md section 1 (R99) and 10_state.md section 6 (R36): in every legal Faulted state the 3-bit signal is the number
R99 gives the record's code (0, 4 and 7 never appear) and the 9-bit signals are its pc and detail, so two such states with
equal ports hold equal records. Number 4 is UNSUPPORTED_OPERATION's, which no step records (R102). The numbers are the spec's own
decision D9. -/
def Obligations.FaultPortLosesNothing : Prop :=
  (∀ (s : State) (rec : FaultRecord), s.legal = true → s.status = .faulted rec →
    ∃ p, s.faultPort = some p ∧
      (rec.code = .oobAddr → p.code = 1#3) ∧ (rec.code = .oobReg → p.code = 2#3) ∧
      (rec.code = .unknownInstruction → p.code = 3#3) ∧ (rec.code = .stackOverflow → p.code = 5#3) ∧
      (rec.code = .stackUnderflow → p.code = 6#3) ∧ p.code ≠ 0#3 ∧ p.code ≠ 4#3 ∧ p.code ≠ 7#3 ∧
      p.fpc.toNat = rec.fpc ∧ p.detail.toNat = rec.detail) ∧
  (∀ (s t : State) (rec rec' : FaultRecord), s.legal = true → t.legal = true →
    s.status = .faulted rec → t.status = .faulted rec' → s.faultPort = t.faultPort → rec = rec') ∧
  faultNumber .unsupportedOperation = 4#3

/-- 40_engine.md section 5 (R80, R81): a run has at most one end, and a program that halts never faults. -/
def Obligations.RunEndIsUnique : Prop :=
  (∀ s t u : State, RunEnds s t → RunEnds s u → t = u) ∧ (∀ s : State, Halts s → SafeRun s)

/-- 40_engine.md sections 1, 2 and 5 (R68, R70, R82): the three bytes at the pc of a Running core are what its step fetches,
decodes and executes. That a table word is placed there, by `State.withFetchWord`, is the model's own device (DESIGN CHOICE,
log 3): R117 lets the host write only while the core is in reset. The placing changes no register, flag, pc, status or output,
and no cell but those three. -/
def Obligations.PlacedWordRunsNext : Prop :=
  ∀ (s : State) (nbits w : Nat) (i : Instr), s.status = .running → s.mem.wf = true → s.pc ≤ 253 →
    decodeTableWord nbits w = some i →
    step (s.withFetchWord nbits w) = exec i (s.withFetchWord nbits w) ∧
    (∃ mem, s.withFetchWord nbits w = { s with mem := mem }) ∧
    (∀ a, a ≠ s.pc → a ≠ s.pc + 1 → a ≠ s.pc + 2 → (s.withFetchWord nbits w).readByte a = s.readByte a)
end

