-- ==== Sys2Proof/Laws/Memory.lean ====
section
/-! SUPPORT. The laws of memory as a canonical list: read after write, and every operation keeps the form. -/

namespace Sys2Proof.Machine

theorem Memory.wfFrom_mono {lo hi : Nat} {m : Memory} (h : Memory.wfFrom hi m = true) (hle : lo ≤ hi) :
    Memory.wfFrom lo m = true := by
  cases m with
  | nil => rfl
  | cons c m =>
    obtain ⟨a, v⟩ := c
    simp only [Memory.wfFrom, Bool.and_eq_true, decide_eq_true_eq] at h ⊢
    exact ⟨⟨⟨by omega, h.1.1.2⟩, h.1.2⟩, h.2⟩

/-- Below its lowest address a canonical memory reads as unlisted. -/
theorem Memory.read_below {m : Memory} : ∀ {lo a : Nat}, Memory.wfFrom lo m = true → a < lo →
    Memory.read m a = Config.unlistedByte := by
  induction m with
  | nil => intros; rfl
  | cons c m ih =>
    intro lo a h hlt
    obtain ⟨b, w⟩ := c
    simp only [Memory.wfFrom, Bool.and_eq_true, decide_eq_true_eq] at h
    have hne : a ≠ b := by omega
    simp only [Memory.read, hne, if_false]
    exact ih h.2 (by omega)

/-- Above 255 a canonical memory reads as unlisted. -/
theorem Memory.read_above {m : Memory} : ∀ {lo a : Nat}, Memory.wfFrom lo m = true → 255 < a →
    Memory.read m a = Config.unlistedByte := by
  induction m with
  | nil => intros; rfl
  | cons c m ih =>
    intro lo a h hlt
    obtain ⟨b, w⟩ := c
    simp only [Memory.wfFrom, Bool.and_eq_true, decide_eq_true_eq] at h
    have hne : a ≠ b := by omega
    simp only [Memory.read, hne, if_false]
    exact ih h.2 hlt

theorem Memory.wfFrom_cons {lo a : Nat} {v : Byte} {m : Memory} (hm : Memory.wfFrom (a + 1) m = true)
    (hlo : lo ≤ a) (ha : a ≤ 255) : Memory.wfFrom lo (Memory.cons a v m) = true := by
  unfold Memory.cons
  split
  · exact Memory.wfFrom_mono hm (by omega)
  · simp_all [Memory.wfFrom]

/-- What a cell put before a canonical memory reads as. -/
theorem Memory.read_cons {a b : Nat} {v : Byte} {m : Memory} (hm : Memory.wfFrom (a + 1) m = true) :
    Memory.read (Memory.cons a v m) b = if b = a then v else Memory.read m b := by
  unfold Memory.cons
  split
  · rename_i hv
    split
    · rename_i hb
      rw [hb, hv]
      exact Memory.read_below hm (by omega)
    · rfl
  · rfl

/-- A write keeps the canonical form. -/
theorem Memory.wfFrom_write {m : Memory} {a : Nat} {v : Byte} (ha : a ≤ 255) : ∀ {lo : Nat},
    Memory.wfFrom lo m = true → lo ≤ a → Memory.wfFrom lo (Memory.write m a v) = true := by
  induction m with
  | nil => intro lo _ hlo; exact Memory.wfFrom_cons rfl hlo ha
  | cons c m ih =>
    intro lo h hlo
    obtain ⟨b, w⟩ := c
    have h' := h
    simp only [Memory.wfFrom, Bool.and_eq_true, decide_eq_true_eq] at h
    unfold Memory.write
    split
    · rename_i hab
      refine Memory.wfFrom_cons ?_ hlo ha
      simp only [Memory.wfFrom, Bool.and_eq_true, decide_eq_true_eq]
      exact ⟨⟨⟨by omega, h.1.1.2⟩, h.1.2⟩, h.2⟩
    · split
      · rename_i hab
        subst hab
        exact Memory.wfFrom_cons h.2 hlo ha
      · simp only [Memory.wfFrom, Bool.and_eq_true, decide_eq_true_eq]
        exact ⟨⟨⟨h.1.1.1, h.1.1.2⟩, h.1.2⟩, ih h.2 (by omega)⟩

theorem Memory.wf_write {m : Memory} {a : Nat} {v : Byte} (h : m.wf = true) (ha : a ≤ 255) :
    (m.write a v).wf = true :=
  Memory.wfFrom_write ha h (Nat.zero_le a)

theorem Memory.read_writeFrom {m : Memory} {a b : Nat} {v : Byte} : ∀ {lo : Nat}, Memory.wfFrom lo m = true →
    Memory.read (Memory.write m a v) b = if b = a then v else Memory.read m b := by
  induction m with
  | nil => intro lo _; exact Memory.read_cons rfl
  | cons c m ih =>
    intro lo h
    obtain ⟨d, w⟩ := c
    simp only [Memory.wfFrom, Bool.and_eq_true, decide_eq_true_eq] at h
    unfold Memory.write
    split
    · rename_i had
      refine Memory.read_cons ?_
      simp only [Memory.wfFrom, Bool.and_eq_true, decide_eq_true_eq]
      exact ⟨⟨⟨by omega, h.1.1.2⟩, h.1.2⟩, h.2⟩
    · split
      · rename_i had
        subst had
        rw [Memory.read_cons h.2]
        by_cases hb : b = a <;> simp [Memory.read, hb]
      · rename_i hlt hne
        simp only [Memory.read]
        split
        · rename_i hbd
          have : b ≠ a := by omega
          simp [this]
        · exact ih h.2

/-- Read after write: the written cell gives the byte, every other cell what it gave before. -/
theorem Memory.read_write {m : Memory} {a b : Nat} {v : Byte} (h : m.wf = true) :
    (m.write a v).read b = if b = a then v else m.read b :=
  Memory.read_writeFrom h

/-- The raw memory write keeps the canonical form. -/
theorem memWrite_keeps_wf {a v : Nat} {s t : State} (h : memWrite a v s = .ok t) (hs : s.mem.wf = true) :
    t.mem.wf = true := by
  unfold memWrite at h
  split at h
  · cases h
  · cases h
    exact Memory.wf_write hs (by omega)

/-- A byte put in from outside a step keeps the canonical form. -/
theorem pokeByte_keeps_wf {s : State} {a : Nat} {v : Byte} (hs : s.mem.wf = true) : (s.pokeByte a v).mem.wf = true := by
  unfold State.pokeByte
  split
  · exact hs
  · exact Memory.wf_write hs (by omega)

/-- The host's load keeps the canonical form. -/
theorem placeImage_keeps_wf {image : List Byte} : ∀ {a : Nat} {m : Memory}, m.wf = true → a + image.length ≤ 256 →
    (placeImage a image m).wf = true := by
  induction image with
  | nil => intro a m h _; exact h
  | cons b bs ih =>
    intro a m h hlen
    simp only [List.length_cons] at hlen
    exact ih (Memory.wf_write h (by omega)) (by omega)

theorem reset_mem_wf : State.reset.mem.wf = true := rfl

end Sys2Proof.Machine
end

