-- ==== Sys2Proof/Laws/State.lean ====
section
/-! SUPPORT. One lemma per field per update of State, and the register file's read after write. -/

namespace Sys2Proof.Machine

theorem RegFile.get_set (f : RegFile) (i j : Reg) (v : Byte) : (f.set i v).get j = if j = i then v else f.get j := by
  fin_cases i <;> fin_cases j <;> rfl

@[simp] theorem writeReg_mem (s : State) (i : Reg) (v : Nat) : (s.writeReg i v).mem = s.mem := rfl
@[simp] theorem writeReg_pc (s : State) (i : Reg) (v : Nat) : (s.writeReg i v).pc = s.pc := rfl
@[simp] theorem writeReg_fl (s : State) (i : Reg) (v : Nat) : (s.writeReg i v).fl = s.fl := rfl
@[simp] theorem writeReg_status (s : State) (i : Reg) (v : Nat) : (s.writeReg i v).status = s.status := rfl
@[simp] theorem writeReg_out (s : State) (i : Reg) (v : Nat) : (s.writeReg i v).out = s.out := rfl
theorem writeReg_reg (s : State) (i j : Reg) (v : Nat) :
    (s.writeReg i v).reg j = if j = i then BitVec.ofNat 8 v else s.reg j := RegFile.get_set ..
@[simp] theorem writeReg_readByte (s : State) (i : Reg) (v a : Nat) : (s.writeReg i v).readByte a = s.readByte a := rfl
theorem writeReg_sp (s : State) (i : Reg) (v : Nat) :
    (s.writeReg i v).sp = if 7 = i then v % 256 else s.sp := by
  unfold State.sp
  rw [writeReg_reg]
  split <;> simp

@[simp] theorem emit_mem (s : State) (v : Byte) : (s.emit v).mem = s.mem := rfl
@[simp] theorem emit_regs (s : State) (v : Byte) : (s.emit v).regs = s.regs := rfl
@[simp] theorem emit_reg (s : State) (v : Byte) (j : Reg) : (s.emit v).reg j = s.reg j := rfl
@[simp] theorem emit_pc (s : State) (v : Byte) : (s.emit v).pc = s.pc := rfl
@[simp] theorem emit_fl (s : State) (v : Byte) : (s.emit v).fl = s.fl := rfl
@[simp] theorem emit_status (s : State) (v : Byte) : (s.emit v).status = s.status := rfl
@[simp] theorem emit_out (s : State) (v : Byte) : (s.emit v).out = s.out ++ [v] := rfl
@[simp] theorem emit_readByte (s : State) (v : Byte) (a : Nat) : (s.emit v).readByte a = s.readByte a := rfl

@[simp] theorem applyEnding_mem (o : Ending) (s : State) : (applyEnding o s).mem = s.mem := by cases o <;> rfl
@[simp] theorem applyEnding_regs (o : Ending) (s : State) : (applyEnding o s).regs = s.regs := by cases o <;> rfl
@[simp] theorem applyEnding_reg (o : Ending) (s : State) (j : Reg) : (applyEnding o s).reg j = s.reg j := by
  cases o <;> rfl
@[simp] theorem applyEnding_sp (o : Ending) (s : State) : (applyEnding o s).sp = s.sp := by cases o <;> rfl
@[simp] theorem applyEnding_fl (o : Ending) (s : State) : (applyEnding o s).fl = s.fl := by cases o <;> rfl
@[simp] theorem applyEnding_out (o : Ending) (s : State) : (applyEnding o s).out = s.out := by cases o <;> rfl
@[simp] theorem applyEnding_readByte (o : Ending) (s : State) (a : Nat) :
    (applyEnding o s).readByte a = s.readByte a := by cases o <;> rfl
@[simp] theorem applyEnding_advance_pc (w : Nat) (s : State) : (applyEnding (.advance w) s).pc = s.pc + w := rfl
@[simp] theorem applyEnding_jump_pc (t : Byte) (s : State) : (applyEnding (.jump t) s).pc = t.toNat := rfl
@[simp] theorem applyEnding_halt_pc (s : State) : (applyEnding .halt s).pc = s.pc := rfl
@[simp] theorem applyEnding_advance_status (w : Nat) (s : State) : (applyEnding (.advance w) s).status = s.status := rfl
@[simp] theorem applyEnding_jump_status (t : Byte) (s : State) : (applyEnding (.jump t) s).status = s.status := rfl
@[simp] theorem applyEnding_halt_status (s : State) : (applyEnding .halt s).status = .halted := rfl

@[simp] theorem takeFault_mem (e : Raised) (s : State) : (takeFault e s).mem = s.mem := rfl
@[simp] theorem takeFault_regs (e : Raised) (s : State) : (takeFault e s).regs = s.regs := rfl
@[simp] theorem takeFault_reg (e : Raised) (s : State) (j : Reg) : (takeFault e s).reg j = s.reg j := rfl
@[simp] theorem takeFault_sp (e : Raised) (s : State) : (takeFault e s).sp = s.sp := rfl
@[simp] theorem takeFault_pc (e : Raised) (s : State) : (takeFault e s).pc = s.pc := rfl
@[simp] theorem takeFault_fl (e : Raised) (s : State) : (takeFault e s).fl = s.fl := rfl
@[simp] theorem takeFault_status (e : Raised) (s : State) :
    (takeFault e s).status = .faulted ⟨e.code, s.pc, e.detail⟩ := rfl
@[simp] theorem takeFault_out (e : Raised) (s : State) : (takeFault e s).out = s.out := rfl
@[simp] theorem takeFault_readByte (e : Raised) (s : State) (a : Nat) : (takeFault e s).readByte a = s.readByte a := rfl

@[simp] theorem resetWith_mem (g : ResetGpr) (m : Memory) : (State.resetWith g m).mem = m := rfl
@[simp] theorem resetWith_pc (g : ResetGpr) (m : Memory) : (State.resetWith g m).pc = 0 := rfl
@[simp] theorem resetWith_fl (g : ResetGpr) (m : Memory) : (State.resetWith g m).fl = 0x00#8 := rfl
@[simp] theorem resetWith_status (g : ResetGpr) (m : Memory) : (State.resetWith g m).status = .running := rfl
@[simp] theorem resetWith_out (g : ResetGpr) (m : Memory) : (State.resetWith g m).out = [] := rfl

end Sys2Proof.Machine
end

