-- ==== Sys2Proof/Laws/Ops.lean ====
section
/-! SUPPORT. One lemma per shared operation: everything it can do. -/

namespace Sys2Proof.Machine

theorem memRead_eq {a : Nat} (s : State) (h : a ≤ 255) : memRead a s = .ok (s.readByte a) := by
  simp [memRead, Nat.not_lt.mpr h]

theorem memRead_out_of_bounds {a : Nat} (s : State) (h : 255 < a) : memRead a s = .error ⟨.oobAddr, a⟩ := by
  simp [memRead, h]

theorem memWrite_eq {a v : Nat} (s : State) (h : a ≤ 255) :
    memWrite a v s = .ok { s with mem := s.mem.write a (BitVec.ofNat 8 v) } := by
  simp [memWrite, Nat.not_lt.mpr h]

theorem memWrite_out_of_bounds {a v : Nat} (s : State) (h : 255 < a) : memWrite a v s = .error ⟨.oobAddr, a⟩ := by
  simp [memWrite, h]

theorem sp_le_255 (s : State) : s.sp ≤ 255 := by
  have := (s.reg Config.spIndex).isLt
  unfold State.sp
  omega

/-- A data access at the stack pointer never raises (20_memory.md R42). -/
theorem memRead_sp (s : State) : memRead s.sp s = .ok (s.readByte s.sp) := memRead_eq s (sp_le_255 s)

theorem spDecrement_zero {s : State} (h : s.sp = 0) : spDecrement s = .error ⟨.stackOverflow, 0⟩ := by
  simp [spDecrement, h]

theorem spDecrement_pos {s : State} (h : s.sp ≠ 0) : spDecrement s = .ok (s.writeReg 7 (s.sp - 1)) := by
  simp [spDecrement, h, Config.spIndex]

theorem spIncrement_top {s : State} (h : s.sp = 255) : spIncrement s = .error ⟨.stackUnderflow, 255⟩ := by
  simp [spIncrement, h]

theorem spIncrement_below {s : State} (h : s.sp ≠ 255) : spIncrement s = .ok (s.writeReg 7 (s.sp + 1)) := by
  simp [spIncrement, h, Config.spIndex]

theorem regOperand_ok {b : Byte} (h : b.toNat < 8) : regOperand b = .ok ⟨b.toNat, h⟩ := by
  simp [regOperand, h]

theorem regOperand_error {b : Byte} (h : 7 < b.toNat) : regOperand b = .error ⟨.oobReg, b.toNat⟩ := by
  have : ¬ b.toNat < 8 := by omega
  simp [regOperand, this]

/-- The register a byte names is R7 exactly when the byte is 7. -/
theorem regOperand_is_sp {b : Byte} (h : b.toNat < 8) : (⟨b.toNat, h⟩ : Reg) = 7 ↔ b = 7#8 := by
  rw [Fin.ext_iff, ← BitVec.toNat_inj]
  rfl

/-- The ALU on its three selectors. -/
theorem aluApply_add (a b : Reg) (s : State) :
    aluApply aluAdd a b s = .ok (s.writeReg a ((s.reg a).toNat + (s.reg b).toNat)) := rfl

theorem aluApply_mul (a b : Reg) (s : State) :
    aluApply aluMul a b s = .ok (s.writeReg a ((s.reg a).toNat * (s.reg b).toNat)) := rfl

theorem aluApply_cmp (a b : Reg) (s : State) :
    aluApply aluCmp a b s = .ok { s with fl := compareFlags (s.reg a).toNat (s.reg b).toNat } := rfl

/-- A commit always answers a next state: the fault taken, or the ending applied to the handler's state. -/
theorem commit_cases {s t : State} {h : Handled} (hc : commit s h = .next t) :
    (∃ e, h = .error e ∧ t = takeFault e s) ∨ (∃ u o, h = .ok (u, o) ∧ t = applyEnding o u) := by
  cases h with
  | error e => cases hc; exact .inl ⟨e, rfl, rfl⟩
  | ok x => cases hc; exact .inr ⟨x.1, x.2, rfl, rfl⟩

theorem commit_next (s : State) (h : Handled) : ∃ t, commit s h = .next t := by
  cases h with
  | error e => exact ⟨_, rfl⟩
  | ok x => exact ⟨_, rfl⟩

end Sys2Proof.Machine
end

