-- ==== Sys2Proof/Laws/Exec.lean ====
section
/-! SUPPORT. Each meaning as one equation over all its cases: the operand faults, the stack fault, the effect. Proofs cite
these and the lemmas of the operations, and unfold no meaning. -/

namespace Sys2Proof.Machine

theorem execLdi_eq (op1 op2 : Byte) (s : State) : execLdi op1 op2 s =
    if h : op1.toNat < 8 then .next (applyEnding (.advance 3) (s.writeReg ⟨op1.toNat, h⟩ op2.toNat))
    else .next (takeFault ⟨.oobReg, op1.toNat⟩ s) := by
  unfold execLdi
  split
  · rename_i h; rw [regOperand_ok h]; rfl
  · rw [regOperand_error (by omega)]; rfl

theorem execPrn_eq (op1 : Byte) (s : State) : execPrn op1 s =
    if h : op1.toNat < 8 then .next (applyEnding (.advance 2) (s.emit (s.reg ⟨op1.toNat, h⟩)))
    else .next (takeFault ⟨.oobReg, op1.toNat⟩ s) := by
  unfold execPrn
  split
  · rename_i h; rw [regOperand_ok h]; rfl
  · rw [regOperand_error (by omega)]; rfl

theorem execHlt_eq (s : State) : execHlt s = .next (applyEnding .halt s) := rfl

/-- The shape of the three ALU instructions. -/
theorem commit_aluHandler_eq (sel op1 op2 : Byte) (s : State) : commit s (aluHandler sel op1 op2 s) =
    if h1 : op1.toNat < 8 then
      if h2 : op2.toNat < 8 then
        match aluApply sel ⟨op1.toNat, h1⟩ ⟨op2.toNat, h2⟩ s with
        | .ok t => .next (applyEnding (.advance 3) t)
        | .error e => .next (takeFault e s)
      else .next (takeFault ⟨.oobReg, op2.toNat⟩ s)
    else .next (takeFault ⟨.oobReg, op1.toNat⟩ s) := by
  unfold aluHandler
  split
  · rename_i h1
    rw [regOperand_ok h1]
    split
    · rename_i h2
      rw [regOperand_ok h2]
      cases h : aluApply sel ⟨op1.toNat, h1⟩ ⟨op2.toNat, h2⟩ s with
      | ok t => simp only [bind, Except.bind, h]; rfl
      | error e => simp only [bind, Except.bind, h]; rfl
    · rw [regOperand_error (b := op2) (by omega)]; rfl
  · rw [regOperand_error (by omega)]; rfl

theorem execAdd_eq (op1 op2 : Byte) (s : State) : execAdd op1 op2 s =
    if h1 : op1.toNat < 8 then
      if h2 : op2.toNat < 8 then
        .next (applyEnding (.advance 3) (s.writeReg ⟨op1.toNat, h1⟩
          ((s.reg ⟨op1.toNat, h1⟩).toNat + (s.reg ⟨op2.toNat, h2⟩).toNat)))
      else .next (takeFault ⟨.oobReg, op2.toNat⟩ s)
    else .next (takeFault ⟨.oobReg, op1.toNat⟩ s) := by
  unfold execAdd
  simp only [commit_aluHandler_eq, aluApply_add]

theorem execMul_eq (op1 op2 : Byte) (s : State) : execMul op1 op2 s =
    if h1 : op1.toNat < 8 then
      if h2 : op2.toNat < 8 then
        .next (applyEnding (.advance 3) (s.writeReg ⟨op1.toNat, h1⟩
          ((s.reg ⟨op1.toNat, h1⟩).toNat * (s.reg ⟨op2.toNat, h2⟩).toNat)))
      else .next (takeFault ⟨.oobReg, op2.toNat⟩ s)
    else .next (takeFault ⟨.oobReg, op1.toNat⟩ s) := by
  unfold execMul
  simp only [commit_aluHandler_eq, aluApply_mul]

theorem execCmp_eq (op1 op2 : Byte) (s : State) : execCmp op1 op2 s =
    if h1 : op1.toNat < 8 then
      if h2 : op2.toNat < 8 then
        .next (applyEnding (.advance 3)
          { s with fl := compareFlags (s.reg ⟨op1.toNat, h1⟩).toNat (s.reg ⟨op2.toNat, h2⟩).toNat })
      else .next (takeFault ⟨.oobReg, op2.toNat⟩ s)
    else .next (takeFault ⟨.oobReg, op1.toNat⟩ s) := by
  unfold execCmp
  simp only [commit_aluHandler_eq, aluApply_cmp]

/-- The stack pointer after the decrement of a push-type instruction. -/
theorem sp_after_decrement (s : State) : (s.writeReg 7 (s.sp - 1)).sp = s.sp - 1 := by
  have := sp_le_255 s
  rw [writeReg_sp, if_pos rfl]
  omega

/-- The state a push-type instruction leaves before its ending: the byte v stored at sp - 1, R7 lowered. -/
def pushed (s : State) (v : Byte) : State :=
  { s.writeReg 7 (s.sp - 1) with mem := s.mem.write (s.sp - 1) v }

@[simp] theorem pushed_mem (s : State) (v : Byte) : (pushed s v).mem = s.mem.write (s.sp - 1) v := rfl
@[simp] theorem pushed_pc (s : State) (v : Byte) : (pushed s v).pc = s.pc := rfl
@[simp] theorem pushed_fl (s : State) (v : Byte) : (pushed s v).fl = s.fl := rfl
@[simp] theorem pushed_status (s : State) (v : Byte) : (pushed s v).status = s.status := rfl
@[simp] theorem pushed_out (s : State) (v : Byte) : (pushed s v).out = s.out := rfl
theorem pushed_reg (s : State) (v : Byte) (j : Reg) :
    (pushed s v).reg j = if j = 7 then BitVec.ofNat 8 (s.sp - 1) else s.reg j := writeReg_reg ..
theorem pushed_sp (s : State) (v : Byte) : (pushed s v).sp = s.sp - 1 := sp_after_decrement s
theorem pushed_readByte {s : State} {v : Byte} {a : Nat} (hs : s.mem.wf = true) :
    (pushed s v).readByte a = if a = s.sp - 1 then v else s.readByte a := Memory.read_write hs

theorem execPush_eq (op1 : Byte) (s : State) : execPush op1 s =
    if h : op1.toNat < 8 then
      if s.sp = 0 then .next (takeFault ⟨.stackOverflow, 0⟩ s)
      else .next (applyEnding (.advance 2)
        (pushed s (if op1 = 7#8 then BitVec.ofNat 8 (s.sp - 1) else s.reg ⟨op1.toNat, h⟩)))
    else .next (takeFault ⟨.oobReg, op1.toNat⟩ s) := by
  unfold execPush
  split
  · rename_i h
    rw [regOperand_ok h]
    split
    · rename_i h0; rw [spDecrement_zero h0]; rfl
    · rename_i h0
      have hle := sp_le_255 s
      rw [spDecrement_pos h0]
      simp only [bind, Except.bind, pure, Except.pure, sp_after_decrement s, writeReg_reg, regOperand_is_sp h]
      rw [memWrite_eq _ (by omega)]
      simp [commit, pushed]
  · rw [regOperand_error (by omega)]; rfl

theorem execCall_eq (op1 : Byte) (s : State) : execCall op1 s =
    if h : op1.toNat < 8 then
      if s.sp = 0 then .next (takeFault ⟨.stackOverflow, 0⟩ s)
      else .next (applyEnding
        (.jump (if op1 = 7#8 then BitVec.ofNat 8 (s.sp - 1) else s.reg ⟨op1.toNat, h⟩))
        (pushed s (BitVec.ofNat 8 (s.pc + 2))))
    else .next (takeFault ⟨.oobReg, op1.toNat⟩ s) := by
  unfold execCall
  split
  · rename_i h
    rw [regOperand_ok h]
    split
    · rename_i h0; rw [spDecrement_zero h0]; rfl
    · rename_i h0
      have hle := sp_le_255 s
      rw [spDecrement_pos h0]
      simp only [bind, Except.bind, pure, Except.pure, sp_after_decrement s]
      rw [memWrite_eq _ (by omega)]
      simp only [commit]
      congr 2
      exact congrArg Ending.jump ((writeReg_reg s 7 _ _).trans (by simp only [regOperand_is_sp h]))
  · rw [regOperand_error (by omega)]; rfl

/-- The value a POP increments: R7 as it stands after the destination write (R93). -/
theorem sp_after_pop_write {op1 : Byte} (s : State) (h : op1.toNat < 8) (v : Byte) :
    (s.writeReg ⟨op1.toNat, h⟩ v.toNat).sp = if op1 = 7#8 then v.toNat else s.sp := by
  have hv := v.isLt
  have : ((7 : Reg) = ⟨op1.toNat, h⟩) = (op1 = 7#8) := propext (eq_comm.trans (regOperand_is_sp h))
  rw [writeReg_sp]
  simp only [this]
  split <;> omega

theorem execPop_eq (op1 : Byte) (s : State) : execPop op1 s =
    if h : op1.toNat < 8 then
      if (if op1 = 7#8 then (s.readByte s.sp).toNat else s.sp) = 255 then .next (takeFault ⟨.stackUnderflow, 255⟩ s)
      else .next (applyEnding (.advance 2)
        ((s.writeReg ⟨op1.toNat, h⟩ (s.readByte s.sp).toNat).writeReg 7
          ((if op1 = 7#8 then (s.readByte s.sp).toNat else s.sp) + 1)))
    else .next (takeFault ⟨.oobReg, op1.toNat⟩ s) := by
  unfold execPop
  split
  · rename_i h
    rw [regOperand_ok h]
    simp only [bind, Except.bind, memRead_sp]
    rw [← sp_after_pop_write s h]
    by_cases h255 : (s.writeReg ⟨op1.toNat, h⟩ (s.readByte s.sp).toNat).sp = 255
    · rw [if_pos h255, spIncrement_top h255]; rfl
    · rw [if_neg h255, spIncrement_below h255]; rfl
  · rw [regOperand_error (by omega)]; rfl

theorem execRet_eq (s : State) : execRet s =
    if s.sp = 255 then .next (takeFault ⟨.stackUnderflow, 255⟩ s)
    else .next (applyEnding (.jump (s.readByte s.sp)) (s.writeReg 7 (s.sp + 1))) := by
  unfold execRet
  simp only [bind, Except.bind, memRead_sp]
  by_cases h : s.sp = 255
  · rw [if_pos h, spIncrement_top h]; rfl
  · rw [if_neg h, spIncrement_below h]; rfl

end Sys2Proof.Machine
end

