-- ==== Sys2Proof/Laws/ExecCases.lean ====
section
/-! SUPPORT. The inversion of exec: everything an instruction that answers a next state can have done. -/

namespace Sys2Proof.Machine

/-- The value a POP of operand byte op1 increments (43_stack_control.md R93). -/
def popIncremented (op1 : Byte) (s : State) : Nat := if op1 = 7#8 then (s.readByte s.sp).toNat else s.sp

/-- The register operand bytes of an instruction, op1 before op2 (30_encoding.md R58). -/
def registerOperands : Instr → List Byte
  | .ldi r _ => [r]
  | .prn r => [r]
  | .hlt => []
  | .mul a b => [a, b]
  | .push r => [r]
  | .pop r => [r]
  | .call r => [r]
  | .ret => []
  | .add a b => [a, b]
  | .cmp a b => [a, b]

/-- The first register operand byte above 7, the one whose fault is recorded (60_exceptions.md R105). -/
def firstBadRegister (i : Instr) : Option Byte := (registerOperands i).find? fun b => decide (7 < b.toNat)

/-- A register fault names an operand byte of the instruction, above 7. -/
theorem firstBadRegister_some {i : Instr} {b : Byte} (h : firstBadRegister i = some b) :
    b ∈ registerOperands i ∧ 7 < b.toNat :=
  ⟨List.mem_of_find?_eq_some h, by simpa using List.find?_some h⟩

/-- An instruction has no bad register operand exactly when it is well-formed. -/
theorem firstBadRegister_none {i : Instr} : firstBadRegister i = none ↔ i.wellFormed = true := by
  cases i <;> simp [firstBadRegister, registerOperands, Instr.wellFormed, namesReg] <;> omega

theorem find_bad_first {a : Byte} {l : List Byte} (h : ¬ a.toNat < 8) :
    (a :: l).find? (fun b => decide (7 < b.toNat)) = some a := by
  rw [List.find?_cons_of_pos]
  simp only [decide_eq_true_eq]
  omega

theorem find_bad_second {a b : Byte} (ha : a.toNat < 8) (hb : ¬ b.toNat < 8) :
    [a, b].find? (fun b => decide (7 < b.toNat)) = some b := by
  rw [List.find?_cons_of_neg, find_bad_first hb]
  simp only [decide_eq_true_eq]
  omega

/-- What exec of an instruction at s did when it answered a state: a fault it took, or its effect and ending. -/
inductive ExecCase (s : State) : Instr → State → Prop where
  | oobReg (i : Instr) (b : Byte) (bad : firstBadRegister i = some b) :
      ExecCase s i (takeFault ⟨.oobReg, b.toNat⟩ s)
  | pushOverflow (r : Byte) (ok : r.toNat < 8) (zero : s.sp = 0) :
      ExecCase s (.push r) (takeFault ⟨.stackOverflow, 0⟩ s)
  | callOverflow (r : Byte) (ok : r.toNat < 8) (zero : s.sp = 0) :
      ExecCase s (.call r) (takeFault ⟨.stackOverflow, 0⟩ s)
  | popUnderflow (r : Byte) (ok : r.toNat < 8) (top : popIncremented r s = 255) :
      ExecCase s (.pop r) (takeFault ⟨.stackUnderflow, 255⟩ s)
  | retUnderflow (top : s.sp = 255) : ExecCase s .ret (takeFault ⟨.stackUnderflow, 255⟩ s)
  | ldi (r v : Byte) (ok : r.toNat < 8) :
      ExecCase s (.ldi r v) (applyEnding (.advance 3) (s.writeReg ⟨r.toNat, ok⟩ v.toNat))
  | prn (r : Byte) (ok : r.toNat < 8) :
      ExecCase s (.prn r) (applyEnding (.advance 2) (s.emit (s.reg ⟨r.toNat, ok⟩)))
  | hlt : ExecCase s .hlt (applyEnding .halt s)
  | add (a b : Byte) (oka : a.toNat < 8) (okb : b.toNat < 8) :
      ExecCase s (.add a b) (applyEnding (.advance 3)
        (s.writeReg ⟨a.toNat, oka⟩ ((s.reg ⟨a.toNat, oka⟩).toNat + (s.reg ⟨b.toNat, okb⟩).toNat)))
  | mul (a b : Byte) (oka : a.toNat < 8) (okb : b.toNat < 8) :
      ExecCase s (.mul a b) (applyEnding (.advance 3)
        (s.writeReg ⟨a.toNat, oka⟩ ((s.reg ⟨a.toNat, oka⟩).toNat * (s.reg ⟨b.toNat, okb⟩).toNat)))
  | cmp (a b : Byte) (oka : a.toNat < 8) (okb : b.toNat < 8) :
      ExecCase s (.cmp a b) (applyEnding (.advance 3)
        { s with fl := compareFlags (s.reg ⟨a.toNat, oka⟩).toNat (s.reg ⟨b.toNat, okb⟩).toNat })
  | push (r : Byte) (ok : r.toNat < 8) (pos : s.sp ≠ 0) :
      ExecCase s (.push r) (applyEnding (.advance 2)
        (pushed s (if r = 7#8 then BitVec.ofNat 8 (s.sp - 1) else s.reg ⟨r.toNat, ok⟩)))
  | call (r : Byte) (ok : r.toNat < 8) (pos : s.sp ≠ 0) :
      ExecCase s (.call r) (applyEnding
        (.jump (if r = 7#8 then BitVec.ofNat 8 (s.sp - 1) else s.reg ⟨r.toNat, ok⟩))
        (pushed s (BitVec.ofNat 8 (s.pc + 2))))
  | pop (r : Byte) (ok : r.toNat < 8) (below : popIncremented r s ≠ 255) :
      ExecCase s (.pop r) (applyEnding (.advance 2)
        ((s.writeReg ⟨r.toNat, ok⟩ (s.readByte s.sp).toNat).writeReg 7 (popIncremented r s + 1)))
  | ret (below : s.sp ≠ 255) :
      ExecCase s .ret (applyEnding (.jump (s.readByte s.sp)) (s.writeReg 7 (s.sp + 1)))

/-- The inversion lemma: one of these cases holds of every exec that answers a next state. -/
theorem exec_cases {i : Instr} {s t : State} (h : exec i s = .next t) : ExecCase s i t := by
  cases i with
  | ldi r v =>
    simp only [exec, execLdi_eq] at h
    split at h <;> rename_i ok <;> cases h
    · exact .ldi r v ok
    · exact .oobReg _ _ (find_bad_first ok)
  | prn r =>
    simp only [exec, execPrn_eq] at h
    split at h <;> rename_i ok <;> cases h
    · exact .prn r ok
    · exact .oobReg _ _ (find_bad_first ok)
  | hlt => cases h; exact .hlt
  | mul a b =>
    simp only [exec, execMul_eq] at h
    split at h <;> rename_i oka
    · split at h <;> rename_i okb <;> cases h
      · exact .mul a b oka okb
      · exact .oobReg _ _ (find_bad_second oka okb)
    · cases h; exact .oobReg _ _ (find_bad_first oka)
  | add a b =>
    simp only [exec, execAdd_eq] at h
    split at h <;> rename_i oka
    · split at h <;> rename_i okb <;> cases h
      · exact .add a b oka okb
      · exact .oobReg _ _ (find_bad_second oka okb)
    · cases h; exact .oobReg _ _ (find_bad_first oka)
  | cmp a b =>
    simp only [exec, execCmp_eq] at h
    split at h <;> rename_i oka
    · split at h <;> rename_i okb <;> cases h
      · exact .cmp a b oka okb
      · exact .oobReg _ _ (find_bad_second oka okb)
    · cases h; exact .oobReg _ _ (find_bad_first oka)
  | push r =>
    simp only [exec, execPush_eq] at h
    split at h <;> rename_i ok
    · split at h <;> rename_i h0 <;> cases h
      · exact .pushOverflow r ok h0
      · exact .push r ok h0
    · cases h; exact .oobReg _ _ (find_bad_first ok)
  | call r =>
    simp only [exec, execCall_eq] at h
    split at h <;> rename_i ok
    · split at h <;> rename_i h0 <;> cases h
      · exact .callOverflow r ok h0
      · exact .call r ok h0
    · cases h; exact .oobReg _ _ (find_bad_first ok)
  | pop r =>
    simp only [exec, execPop_eq] at h
    split at h <;> rename_i ok
    · by_cases h0 : popIncremented r s = 255
      · rw [if_pos (show (if r = 7#8 then (s.readByte s.sp).toNat else s.sp) = 255 from h0)] at h
        cases h
        exact .popUnderflow r ok h0
      · rw [if_neg (show ¬ (if r = 7#8 then (s.readByte s.sp).toNat else s.sp) = 255 from h0)] at h
        cases h
        exact .pop r ok h0
    · cases h; exact .oobReg _ _ (find_bad_first ok)
  | ret =>
    simp only [exec, execRet_eq] at h
    split at h <;> rename_i h0 <;> cases h
    · exact .retUnderflow h0
    · exact .ret h0

end Sys2Proof.Machine
end

