-- ==== Sys2Proof/Laws/HostView.lean ====
section
/-! SUPPORT. The character of a decimal digit. -/

namespace Sys2Proof.Machine

theorem decimalDigit_toNat {n : Nat} (h : n < 10) : (decimalDigit n).toNat = 48 + n := by
  interval_cases n <;> rfl

theorem decimalDigit_eq_zero {n : Nat} (h : n < 10) : decimalDigit n = '0' ↔ n = 0 := by
  interval_cases n <;> decide

end Sys2Proof.Machine
end

