-- ==== Sys2Proof/Laws/PerInstr.lean ====
section
/-! SUPPORT. Statements made per instruction, one lemma a constructor. -/

/-- The encoding of i is its opcode byte and as many operand bytes as the byte's field N says, and its length is the width
of the table (30_encoding.md R55, R61). -/
def Sys2Proof.Laws.EncodedLength.Statement (i : Sys2Proof.Instr) : Prop :=
  ∃ ir rest, Sys2Proof.encode i = ir :: rest ∧ ir ∈ Sys2Proof.opcodeBytes ∧
    rest.length = (Sys2Proof.countField ir).toNat ∧ Sys2Proof.instrWidth i = 1 + rest.length

namespace Sys2Proof.Laws

theorem EncodedLength.ldi (reg imm8 : Byte) : EncodedLength.Statement (.ldi reg imm8) :=
  ⟨_, _, rfl, by decide, rfl, rfl⟩

theorem EncodedLength.prn (reg : Byte) : EncodedLength.Statement (.prn reg) := ⟨_, _, rfl, by decide, rfl, rfl⟩

theorem EncodedLength.hlt : EncodedLength.Statement .hlt := ⟨_, _, rfl, by decide, rfl, rfl⟩

theorem EncodedLength.mul (regA regB : Byte) : EncodedLength.Statement (.mul regA regB) :=
  ⟨_, _, rfl, by decide, rfl, rfl⟩

theorem EncodedLength.push (reg : Byte) : EncodedLength.Statement (.push reg) := ⟨_, _, rfl, by decide, rfl, rfl⟩

theorem EncodedLength.pop (reg : Byte) : EncodedLength.Statement (.pop reg) := ⟨_, _, rfl, by decide, rfl, rfl⟩

theorem EncodedLength.call (reg : Byte) : EncodedLength.Statement (.call reg) := ⟨_, _, rfl, by decide, rfl, rfl⟩

theorem EncodedLength.ret : EncodedLength.Statement .ret := ⟨_, _, rfl, by decide, rfl, rfl⟩

theorem EncodedLength.add (regA regB : Byte) : EncodedLength.Statement (.add regA regB) :=
  ⟨_, _, rfl, by decide, rfl, rfl⟩

theorem EncodedLength.cmp (regA regB : Byte) : EncodedLength.Statement (.cmp regA regB) :=
  ⟨_, _, rfl, by decide, rfl, rfl⟩

end Sys2Proof.Laws
end

