-- ==== Sys2Proof/Laws/Step.lean ====
section
/-! SUPPORT. Fetch, decode and step: everything each can do, said once. -/

namespace Sys2Proof.Machine

theorem fetch_eq {s : State} (h : s.pc ≤ 253) : fetch s = .ok s.latch := by
  have h0 : ¬ 255 < s.pc := by omega
  have h1 : ¬ 255 < s.pc + 1 := by omega
  have h2 : ¬ 255 < s.pc + 2 := by omega
  simp only [fetch, h0, h1, h2, if_false]
  rw [memRead_eq _ (by omega), memRead_eq _ (by omega), memRead_eq _ (by omega)]
  rfl

/-- From pc 254 up the fetch raises OOB_ADDR with the lowest failing address. -/
theorem fetch_error {s : State} (h : 254 ≤ s.pc) : fetch s = .error ⟨.oobAddr, max s.pc 256⟩ := by
  unfold fetch
  split
  · rw [Nat.max_eq_left (by omega)]
  · split
    · congr 2; omega
    · split
      · congr 2; omega
      · omega

/-- A decode that answers an instruction answers one of the ten rows. -/
theorem decode_cases {l : Latch} {i : Instr} (h : decode l = .ok i) :
    (l.ir = 0x82#8 ∧ i = .ldi l.op1 l.op2) ∨ (l.ir = 0x47#8 ∧ i = .prn l.op1) ∨ (l.ir = 0x01#8 ∧ i = .hlt) ∨
    (l.ir = 0xA2#8 ∧ i = .mul l.op1 l.op2) ∨ (l.ir = 0x45#8 ∧ i = .push l.op1) ∨ (l.ir = 0x46#8 ∧ i = .pop l.op1) ∨
    (l.ir = 0x50#8 ∧ i = .call l.op1) ∨ (l.ir = 0x11#8 ∧ i = .ret) ∨ (l.ir = 0xA0#8 ∧ i = .add l.op1 l.op2) ∨
    (l.ir = 0xA7#8 ∧ i = .cmp l.op1 l.op2) := by
  unfold decode at h
  repeat' split at h
  all_goals first
    | (cases h; done)
    | (injection h with h; subst h; simp_all)

/-- A decode that answers none answers the unknown opcode, which is not in the table. -/
theorem decode_error_cases {l : Latch} {e : DecodeError} (h : decode l = .error e) :
    l.ir ∉ opcodeBytes ∧ e = .unknownInstruction l.ir := by
  unfold decode at h
  repeat' split at h
  all_goals first
    | (cases h; done)
    | (injection h with h; subst h; simp_all [opcodeBytes])

theorem stopReason_none {s : State} : stopReason s = none ↔ s.status = .running := by
  unfold stopReason
  split <;> simp_all

/-- A Running core whose fetch or decode raises takes that fault. -/
theorem step_raises {s : State} {e : Raised} (h : s.status = .running) (hf : fetchDecode s = .error e) :
    step s = .next (takeFault e s) := by
  simp only [step, stopReason_none.mpr h, hf]

/-- A Running core whose fetch and decode give an instruction executes it. -/
theorem step_executes {s : State} {i : Instr} (h : s.status = .running) (hf : fetchDecode s = .ok i) :
    step s = exec i s := by
  simp only [step, stopReason_none.mpr h, hf]

theorem step_fetch_fault {s : State} (h : s.status = .running) (hpc : 254 ≤ s.pc) :
    step s = .next (takeFault ⟨.oobAddr, max s.pc 256⟩ s) := by
  apply step_raises h
  simp only [fetchDecode, fetch_error hpc, bind, Except.bind]

theorem step_unknown {s : State} {e : DecodeError} (h : s.status = .running) (hpc : s.pc ≤ 253)
    (hd : decode s.latch = .error e) :
    step s = .next (takeFault ⟨.unknownInstruction, s.latch.ir.toNat⟩ s) := by
  obtain ⟨-, rfl⟩ := decode_error_cases hd
  apply step_raises h
  simp only [fetchDecode, fetch_eq hpc, bind, Except.bind, decodeLatch, hd]

theorem fetchDecode_eq {s : State} {i : Instr} (hpc : s.pc ≤ 253) (hd : decode s.latch = .ok i) :
    fetchDecode s = .ok i := by
  simp only [fetchDecode, fetch_eq hpc, bind, Except.bind, decodeLatch, hd]

/-- Everything a step that answers a next state can be: a failing fetch, an unknown opcode, or a decoded instruction. -/
theorem step_cases {s t : State} (h : step s = .next t) : s.status = .running ∧
    ((254 ≤ s.pc ∧ t = takeFault ⟨.oobAddr, max s.pc 256⟩ s) ∨
     (s.pc ≤ 253 ∧ s.latch.ir ∉ opcodeBytes ∧ t = takeFault ⟨.unknownInstruction, s.latch.ir.toNat⟩ s) ∨
     (s.pc ≤ 253 ∧ ∃ i, decode s.latch = .ok i ∧ exec i s = .next t)) := by
  have hr : s.status = .running := by
    cases hs : stopReason s with
    | none => exact stopReason_none.mp hs
    | some f => unfold step at h; rw [hs] at h; cases h
  refine ⟨hr, ?_⟩
  by_cases hpc : s.pc ≤ 253
  · cases hd : decode s.latch with
    | error e =>
      rw [step_unknown hr hpc hd] at h
      cases h
      exact .inr (.inl ⟨hpc, (decode_error_cases hd).1, rfl⟩)
    | ok i =>
      rw [step_executes hr (fetchDecode_eq hpc hd)] at h
      exact .inr (.inr ⟨hpc, i, rfl, h⟩)
  · rw [step_fetch_fault hr (by omega)] at h
    cases h
    exact .inl ⟨by omega, rfl⟩

end Sys2Proof.Machine
end

