-- ==== Sys2Proof/Tests/Slice0.lean ====
section
/-! SUPPORT. The model's own tests. Expected results come from spec/95_test_vectors.md (its V- and W- numbers stand beside
each test) or from the encoding table of 30_encoding.md R59; none is the model's own answer. The last part shows, for every
statement of Certificates/Slice0/Obligations.lean that has hypotheses, a state and operands that meet them. -/

namespace Sys2Proof.Machine.Tests

/-! ## Helpers -/

/-- A Running core with FL = 0x04, as the vectors of 95_test_vectors.md section 2 use it. -/
def at_ (pc : Nat) (mem : Memory) (regs : RegFile) : State :=
  { mem := mem, regs := regs, pc := pc, fl := 0x04#8, status := .running, out := [] }

/-- R0 = a, R1 = b, R7 = sp, the rest 0. -/
def regs3 (a b sp : Byte) : RegFile := ⟨a, b, 0, 0, 0, 0, 0, sp⟩

/-- A RET with the stack pointer one below the top. -/
def nearTop : State := at_ 16 [(16, 0x11#8), (254, 0x30#8)] (regs3 9 5 254)

/-- A step that answers a next state with the property. -/
def answers (o : StepOutcome) (p : State → Bool) : Bool :=
  match o with
  | .next t => p t
  | .fault _ => false
  | .refused _ => false

/-- A step that records a fault and changes nothing else. -/
def records (s : State) (code : FaultCode) (detail : Nat) : Bool :=
  answers (step s) fun t => decide (t = { s with status := .faulted ⟨code, s.pc, detail⟩ })

/-! ## Well-formedness: each check refuses an ill-formed term -/

theorem test_wf_ldi : (Instr.ldi 8#8 0#8).wellFormed = false ∧ (Instr.ldi 7#8 255#8).wellFormed = true := by decide
theorem test_wf_prn : (Instr.prn 8#8).wellFormed = false ∧ (Instr.prn 7#8).wellFormed = true := by decide
theorem test_wf_push : (Instr.push 9#8).wellFormed = false ∧ (Instr.push 0#8).wellFormed = true := by decide
theorem test_wf_pop : (Instr.pop 255#8).wellFormed = false ∧ (Instr.pop 7#8).wellFormed = true := by decide
theorem test_wf_call : (Instr.call 16#8).wellFormed = false ∧ (Instr.call 1#8).wellFormed = true := by decide
theorem test_wf_add_op1 : (Instr.add 8#8 0#8).wellFormed = false := by decide
theorem test_wf_add_op2 : (Instr.add 0#8 8#8).wellFormed = false ∧ (Instr.add 7#8 7#8).wellFormed = true := by decide
theorem test_wf_mul_op1 : (Instr.mul 8#8 0#8).wellFormed = false := by decide
theorem test_wf_mul_op2 : (Instr.mul 0#8 8#8).wellFormed = false ∧ (Instr.mul 7#8 7#8).wellFormed = true := by decide
theorem test_wf_cmp_op1 : (Instr.cmp 8#8 0#8).wellFormed = false := by decide
theorem test_wf_cmp_op2 : (Instr.cmp 0#8 8#8).wellFormed = false ∧ (Instr.cmp 7#8 7#8).wellFormed = true := by decide

/-! ## Decoding: the words of 30_encoding.md R59, bit by bit (V-D1) -/

theorem test_decode_ldi : decode ⟨0b10000010#8, 0x00#8, 0x08#8⟩ = .ok (.ldi 0#8 8#8) := by decide
theorem test_decode_prn : decode ⟨0b01000111#8, 0x00#8, 0xFF#8⟩ = .ok (.prn 0#8) := by decide
theorem test_decode_hlt : decode ⟨0b00000001#8, 0xFF#8, 0xFF#8⟩ = .ok .hlt := by decide
theorem test_decode_mul : decode ⟨0b10100010#8, 0x02#8, 0x03#8⟩ = .ok (.mul 2#8 3#8) := by decide
theorem test_decode_push : decode ⟨0b01000101#8, 0x07#8, 0x00#8⟩ = .ok (.push 7#8) := by decide
theorem test_decode_pop : decode ⟨0b01000110#8, 0x01#8, 0x00#8⟩ = .ok (.pop 1#8) := by decide
theorem test_decode_call : decode ⟨0b01010000#8, 0x01#8, 0x00#8⟩ = .ok (.call 1#8) := by decide
theorem test_decode_ret : decode ⟨0b00010001#8, 0x00#8, 0x00#8⟩ = .ok .ret := by decide
theorem test_decode_add : decode ⟨0b10100000#8, 0x09#8, 0x08#8⟩ = .ok (.add 9#8 8#8) := by decide
theorem test_decode_cmp : decode ⟨0b10100111#8, 0x04#8, 0x05#8⟩ = .ok (.cmp 4#8 5#8) := by decide

/-- V-D2 to V-D9: bytes that are no opcode. -/
theorem test_decode_unlisted : ∀ ir ∈ [0x00#8, 0x02#8, 0x42#8, 0xC2#8, 0x54#8, 0x55#8, 0x56#8, 0xFF#8, 0x22#8],
    decode ⟨ir, 0#8, 0#8⟩ = .error (.unknownInstruction ir) := by decide

/-- MUL R2, R3 as one table word: the second byte is bits 15 to 8. -/
theorem test_tableWord_mul : decodeTableWord 24 0x0302A2 = some (.mul 2#8 3#8) := by decide

/-- A word of 8 bits: the operand bytes are zeros, and bits above nbits are dropped. -/
theorem test_tableWord_short : decodeTableWord 8 0xFF45 = some (.push 0#8) ∧ decodeTableWord 8 0x54 = none := by decide

/-- The first step after reset runs a placed LDI R3, 0x5A. -/
theorem test_withFetchWord_runs : answers (step (State.reset.withFetchWord 24 0x5A0382))
    (fun t => decide (t.reg 3 = 0x5A#8 ∧ t.pc = 3)) = true := by decide

/-! ## Fetch (V-F) -/

/-- V-F1: a HLT at 253 is fetched and runs. -/
theorem test_fetch_at_253 : answers (step (at_ 253 [(253, 0x01#8)] (regs3 0 0 0xF4)))
    (fun t => decide (t.status = .halted ∧ t.pc = 253)) = true := by decide

/-- V-F2: a HLT at 254 is not. -/
theorem test_fetch_at_254 : records (at_ 254 [(254, 0x01#8)] (regs3 0 0 0xF4)) .oobAddr 256 = true := by decide

/-- V-F5: pc = 256. -/
theorem test_fetch_at_256 : records (at_ 256 [] (regs3 0 0 0xF4)) .oobAddr 256 = true := by decide

/-- V-F9: the register check comes before the stack check. -/
theorem test_push_bad_register_first : records (at_ 16 [(16, 0x45#8), (17, 0x08#8)] (regs3 0 0 0)) .oobReg 8 = true := by
  decide

/-! ## Instructions -/

/-- V-F4: LDI R3, 0x5A at 253 ends at pc 256, not reduced. -/
theorem test_ldi_no_pc_wrap : answers (step (at_ 253 [(253, 0x82#8), (254, 0x03#8), (255, 0x5A#8)] (regs3 0 0 0xF4)))
    (fun t => decide (t.reg 3 = 0x5A#8 ∧ t.pc = 256 ∧ t.fl = 0x04#8)) = true := by decide

/-- V-F7: the index 255 is not reduced to 3 bits. -/
theorem test_ldi_bad_register : records (at_ 16 [(16, 0x82#8), (17, 0xFF#8), (18, 0x01#8)] (regs3 0 0 0xF4)) .oobReg 255 = true := by
  decide

/-- V-P2: 255 is printed "255". -/
theorem test_prn_255 : answers (step (at_ 16 [(16, 0x47#8)] (regs3 255 0 0xF4)))
    (fun t => decide (t.out = [255#8] ∧ t.pc = 18 ∧ t.printed = ['2', '5', '5', '\n'])) = true := by decide

/-- V-P3. -/
theorem test_prn_bad_register : records (at_ 16 [(16, 0x47#8), (17, 0x09#8)] (regs3 0 0 0xF4)) .oobReg 9 = true := by decide

/-- V-H1: nothing but the status changes. -/
theorem test_hlt : answers (step (at_ 11 [(11, 0x01#8)] (regs3 1 2 0xF4)))
    (fun t => decide (t = { at_ 11 [(11, 0x01#8)] (regs3 1 2 0xF4) with status := .halted })) = true := by decide

/-- V-A1. -/
theorem test_add_wraps : answers (step (at_ 16 [(16, 0xA0#8), (18, 0x01#8)] (regs3 250 10 0xF4)))
    (fun t => decide (t.reg 0 = 4#8 ∧ t.reg 1 = 10#8 ∧ t.fl = 0x04#8 ∧ t.pc = 19)) = true := by decide

/-- V-A7: ADD R7, R1 moves the stack pointer with no check. -/
theorem test_add_stack_pointer : answers (step (at_ 16 [(16, 0xA0#8), (17, 0x07#8), (18, 0x01#8)] (regs3 0 0x0C 0xF4)))
    (fun t => decide (t.reg 7 = 0#8 ∧ t.status = .running)) = true := by decide

/-- V-M3: 255 times 255 leaves 1. -/
theorem test_mul_wraps : answers (step (at_ 16 [(16, 0xA2#8), (18, 0x01#8)] (regs3 255 255 0xF4)))
    (fun t => decide (t.reg 0 = 1#8 ∧ t.pc = 19)) = true := by decide

/-- V-M8: a source that is also the destination. -/
theorem test_mul_same_register : answers (step (at_ 16 [(16, 0xA2#8), (17, 0x01#8), (18, 0x01#8)] (regs3 0 16 0xF4)))
    (fun t => decide (t.reg 1 = 0#8)) = true := by decide

/-- V-C4: the comparison is unsigned. -/
theorem test_cmp_less_unsigned : answers (step (at_ 16 [(16, 0xA7#8), (18, 0x01#8)] (regs3 0 255 0xF4)))
    (fun t => decide (t.fl = 0x04#8 ∧ t.flagL = true ∧ t.flagG = false ∧ t.flagE = false ∧ t.pc = 19)) = true := by decide

/-- V-C3: the corrected equal case overwrites the old flag. -/
theorem test_cmp_equal : answers (step (at_ 16 [(16, 0xA7#8), (18, 0x01#8)] (regs3 5 5 0xF4)))
    (fun t => decide (t.fl = 0x01#8)) = true := by decide

/-- V-S1. -/
theorem test_push : answers (step (at_ 16 [(16, 0x45#8)] (regs3 42 0 0xF4)))
    (fun t => decide (t.reg 7 = 0xF3#8 ∧ t.readByte 0xF3 = 42#8 ∧ t.pc = 18)) = true := by decide

/-- V-S4: PUSH R7 stores the decremented pointer. -/
theorem test_push_sp : answers (step (at_ 16 [(16, 0x45#8), (17, 0x07#8)] (regs3 0 0 0xF4)))
    (fun t => decide (t.reg 7 = 0xF3#8 ∧ t.readByte 0xF3 = 0xF3#8)) = true := by decide

/-- V-S7: the faulting POP changes nothing. -/
theorem test_pop_underflow : records (at_ 16 [(16, 0x46#8), (17, 0x01#8), (255, 7#8)] (regs3 0 3 255)) .stackUnderflow 255 = true := by
  decide

/-- V-S11: POP R7 increments the loaded value, not sp. -/
theorem test_pop_sp : answers (step (at_ 16 [(16, 0x46#8), (17, 0x07#8), (255, 0x20#8)] (regs3 0 0 255)))
    (fun t => decide (t.reg 7 = 0x21#8 ∧ t.pc = 18)) = true := by decide

/-- V-S13: the largest return address. -/
theorem test_call_top : answers (step (at_ 253 [(253, 0x50#8), (254, 0x02#8)] (regs3 0 0 0xF4)))
    (fun t => decide (t.readByte 0xF3 = 255#8 ∧ t.reg 7 = 0xF3#8 ∧ t.pc = 0)) = true := by decide

/-- V-S16: CALL R7 jumps to the address the return address was stored at. -/
theorem test_call_sp : answers (step (at_ 0x20 [(0x20, 0x50#8), (0x21, 0x07#8)] (regs3 0 0 0x80)))
    (fun t => decide (t.reg 7 = 0x7F#8 ∧ t.readByte 0x7F = 0x22#8 ∧ t.pc = 0x7F)) = true := by decide

/-- V-S20. -/
theorem test_ret : answers (step nearTop)
    (fun t => decide (t.pc = 0x30 ∧ t.reg 7 = 255#8)) = true := by decide

/-- V-S19. -/
theorem test_ret_underflow : records (at_ 16 [(16, 0x11#8), (255, 8#8)] (regs3 0 0 255)) .stackUnderflow 255 = true := by
  decide

/-! ## Witnesses: the hypotheses of the statements can be met, at the boundary of each clause -/

/-- A Running core at the last pc a fetch can start from, with a HLT there. -/
def lastHlt : State := at_ 253 [(253, 0x01#8)] (regs3 1 2 0xF4)

/-- A Running core at the first pc no fetch can start from. -/
def pastBound : State := at_ 254 [(254, 0x01#8)] (regs3 1 2 0xF4)

/-- A Running core about to PUSH R0 onto the next instruction's opcode: sp = pc + 3. -/
def selfStore : State := at_ 16 [(16, 0x45#8)] (regs3 0x11 0 19)

/-- The stack pointer at each bound. -/
def lowStack : State := at_ 16 [(16, 0x45#8)] (regs3 9 5 0)
def oneStack : State := at_ 16 [(16, 0x45#8)] (regs3 9 5 1)
def topStack : State := at_ 16 [(16, 0x46#8), (17, 0x01#8), (255, 0x20#8)] (regs3 9 5 255)
def topPopped : State := at_ 16 [(16, 0x46#8), (17, 0x07#8), (243, 0xFF#8)] (regs3 9 5 0xF3)

/-- The fetch bound that every instruction's statement holds. -/
theorem witness_FetchFaultsPast253 : pastBound.status = .running ∧ 254 ≤ pastBound.pc := by decide

theorem witness_WholeByteSelects : (0x82#8 ∈ opcodeBytes) ∧ opField 0x02#8 = opField 0x82#8 ∧
    countField 0x02#8 ≠ countField 0x82#8 := by decide

theorem witness_UnusedSlotsIgnored : (0x47#8 ∈ [0x47#8, 0x45#8, 0x46#8, 0x50#8]) ∧ (0x11#8 ∈ [0x01#8, 0x11#8]) ∧
    pastBound.status = .running ∧ 254 ≤ pastBound.pc := by decide

theorem witness_FetchReadsThreeBytes : lastHlt.status = .running ∧ lastHlt.pc ≤ 253 ∧ 254 ≤ pastBound.pc := by decide

theorem witness_StepRunsDecodedInstruction : lastHlt.status = .running ∧ lastHlt.pc ≤ 253 ∧
    decode ⟨lastHlt.readByte lastHlt.pc, lastHlt.readByte (lastHlt.pc + 1), lastHlt.readByte (lastHlt.pc + 2)⟩ = .ok .hlt := by
  decide

theorem witness_StoppedCoreTakesNoStep : ({ lastHlt with status := .halted } : State).status = .halted ∧
    ({ lastHlt with status := .faulted ⟨.oobReg, 0, 8⟩ } : State).status = .faulted ⟨.oobReg, 0, 8⟩ ∧
    ∃ t, step lastHlt = .next t := ⟨rfl, rfl, _, rfl⟩

theorem witness_RunningCoreAlwaysSteps : lastHlt.status = .running := rfl

theorem witness_UnlistedOpcodeFaults : State.reset.status = .running ∧ State.reset.pc ≤ 253 ∧
    State.reset.readByte State.reset.pc ∉ opcodeBytes ∧ countField 0xC2#8 = 3#2 := by decide

theorem witness_LdiLoadsImmediate : (7#8).toNat < 8 ∧ 7 < (8#8).toNat := by decide
theorem witness_PrnAppendsOutput : (0#8).toNat < 8 ∧ 7 < (9#8).toNat := by decide
theorem witness_HltHalts : pastBound.status = .running ∧ 254 ≤ pastBound.pc := by decide
theorem witness_AddWritesSumMod256 : (7#8).toNat < 8 ∧ (0#8).toNat < 8 ∧ 7 < (8#8).toNat := by decide
theorem witness_MulWritesProductMod256 : (1#8).toNat < 8 ∧ (7#8).toNat < 8 ∧ 7 < (255#8).toNat := by decide

theorem witness_CmpSetsOneFlag : (0#8).toNat < 8 ∧ (1#8).toNat < 8 ∧ 7 < (8#8).toNat ∧
    ((at_ 16 [] (regs3 3 5 0)).reg 0).toNat < ((at_ 16 [] (regs3 3 5 0)).reg 1).toNat ∧
    ((at_ 16 [] (regs3 255 0 0)).reg 1).toNat < ((at_ 16 [] (regs3 255 0 0)).reg 0).toNat ∧
    (at_ 16 [] (regs3 5 5 0)).reg 0 = (at_ 16 [] (regs3 5 5 0)).reg 1 := by decide

theorem witness_PushStoresBelow : (7#8).toNat < 8 ∧ oneStack.mem.wf = true ∧ oneStack.sp ≠ 0 ∧ lowStack.sp = 0 ∧
    7 < (8#8).toNat := by decide

theorem witness_PopLoadsThenRaises : (7#8).toNat < 8 ∧ (topStack.readByte topStack.sp).toNat ≠ 255 ∧
    (1#8).toNat < 8 ∧ nearTop.sp ≠ 255 ∧ topStack.sp = 255 ∧ (topPopped.readByte topPopped.sp).toNat = 255 ∧
    7 < (8#8).toNat := by decide

theorem witness_CallStoresReturnAddress : (7#8).toNat < 8 ∧ oneStack.mem.wf = true ∧ oneStack.sp ≠ 0 ∧
    oneStack.pc ≤ 253 ∧ lowStack.sp = 0 ∧ 7 < (8#8).toNat := by decide

theorem witness_RetPopsProgramCounter : nearTop.sp ≠ 255 ∧ topStack.sp = 255 := by decide

theorem witness_LdiThenPrnOutputs : (7#8).toNat < 8 := by decide

theorem witness_PushPopRoundTrip : (7#8).toNat < 8 ∧ (6#8).toNat < 8 ∧ oneStack.mem.wf = true ∧ oneStack.sp ≠ 0 ∧
    6#8 ≠ 7#8 := by decide

theorem witness_CallRetRoundTrip : (7#8).toNat < 8 ∧ lastHlt.mem.wf = true ∧ lastHlt.sp ≠ 0 ∧ lastHlt.pc ≤ 253 := by
  decide

theorem witness_StoredByteIsFetchedNext : selfStore.latch.op1.toNat < 8 ∧ selfStore.status = .running ∧
    selfStore.mem.wf = true ∧ selfStore.pc ≤ 251 ∧ selfStore.latch.ir = 0x45#8 ∧ 0 < 3 ∧
    selfStore.sp = selfStore.pc + 3 + 0 := by decide

theorem witness_MemoryReadAfterWrite : lastHlt.mem.wf = true ∧ 255 ≤ 255 ∧ 255 < 256 := by decide

theorem witness_CanonicalMemoryUnique : Memory.wf (Memory.write [(3, 1#8)] 3 0#8) = true ∧ Memory.wf [] = true ∧
    ∀ a, a ≤ 255 → Memory.read (Memory.write [(3, 1#8)] 3 0#8) a = Memory.read [] a := ⟨rfl, rfl, fun _ _ => rfl⟩

theorem witness_StepKeepsLegal : lastHlt.legal = true ∧ ∃ t, step lastHlt = .next t := ⟨rfl, _, rfl⟩

theorem witness_ResetIsLegal : Memory.wf [(0, 0x01#8), (255, 7#8)] = true := by decide

theorem witness_FaultsArePrecise : ∃ t, step pastBound = .next t ∧ t.status = .faulted ⟨.oobAddr, 254, 256⟩ :=
  ⟨_, rfl, rfl⟩

theorem witness_FaultPriority : lastHlt.status = .running ∧ 254 ≤ pastBound.pc ∧ pastBound.status = .running ∧
    (State.reset.pc ≤ 253 ∧ State.reset.latch.ir ∉ opcodeBytes) ∧
    (lowStack.pc ≤ 253 ∧ lowStack.latch.ir ∈ opcodeBytes ∧ lowStack.latch.op1.toNat ≤ 7) ∧
    (Latch.ir ⟨0xA0#8, 7#8, 8#8⟩ ∈ opcodeBytes ∧
      [7#8, 8#8].find? (fun b => decide (7 < b.toNat)) = some 8#8) ∧
    ∃ t, step lowStack = .next t ∧ t.status = .faulted ⟨.stackOverflow, 16, 0⟩ :=
  ⟨rfl, by decide, rfl, by decide, by decide, by decide, _, rfl, rfl⟩

theorem witness_StackFaultsExactlyAtBounds : lowStack.status = .running ∧ (Instr.push 0#8).wellFormed = true ∧
    (∃ t, exec (.push 0#8) lowStack = .next t) ∧ (∃ t, exec .ret topStack = .next t) := ⟨rfl, rfl, ⟨_, rfl⟩, ⟨_, rfl⟩⟩

theorem witness_OnlyCmpTouchesFlags : (∃ t, exec (.cmp 0#8 1#8) lastHlt = .next t ∧ t.fl = 0x04#8) ∧
    (∃ t, exec (.cmp 0#8 0#8) lastHlt = .next t ∧ t.fl ≠ lastHlt.fl) ∧
    (Instr.cmp 0#8 1#8).wellFormed = true ∧ ∃ t, step lastHlt = .next t :=
  ⟨⟨_, rfl, rfl⟩, ⟨_, rfl, by decide⟩, rfl, _, rfl⟩

theorem witness_OnlyCallRetTransferControl : lastHlt.status = .running ∧
    (∃ t, exec .hlt lastHlt = .next t ∧ t.status ≠ .running) ∧
    (∃ t, exec .ret lastHlt = .next t ∧ t.status = .running) ∧
    (∃ t, exec (.prn 0#8) lastHlt = .next t ∧ t.status = .running) :=
  ⟨rfl, ⟨_, rfl, by decide⟩, ⟨_, rfl, rfl⟩, ⟨_, rfl, rfl⟩⟩

theorem witness_OnlyPushCallWriteMemory : selfStore.mem.wf = true ∧
    ∃ t, step selfStore = .next t ∧ t.readByte 18 ≠ selfStore.readByte 18 := ⟨rfl, _, rfl, by decide⟩

theorem witness_OutputLogGrowsOnlyByPrn : (0#8).toNat < 8 ∧
    ∃ t, exec (.prn 0#8) lastHlt = .next t ∧ t.out ≠ lastHlt.out := ⟨by decide, _, rfl, by decide⟩

theorem witness_StatusWrittenOnlyByHltAndFaults : lastHlt.status = .running ∧
    (∃ t, exec .hlt lastHlt = .next t) ∧ (∃ t, step lastHlt = .next t ∧ t.status ≠ .running) ∧
    ({ lastHlt with status := .halted } : State).status ≠ .running :=
  ⟨rfl, ⟨_, rfl⟩, ⟨_, rfl, by decide⟩, by decide⟩

theorem witness_RegistersChangeOnlyAsListed :
    ∃ t, exec (.ldi 3#8 9#8) lastHlt = .next t ∧ t.reg 3 ≠ lastHlt.reg 3 := ⟨_, rfl, by decide⟩

theorem witness_UnsupportedOperationUnreachable : (0#8 ≠ aluAdd ∧ 0#8 ≠ aluMul ∧ 0#8 ≠ aluCmp) ∧
    ∃ t, step pastBound = .next t ∧ t.status = .faulted ⟨.oobAddr, 254, 256⟩ := ⟨by decide, _, rfl, rfl⟩

theorem witness_LaunchLoadsImage : Memory.wf [(255, 7#8)] = true ∧ 1 ≤ [0x01#8].length ∧ [0x01#8].length ≤ 256 ∧
    (List.replicate 256 (0x01#8)).length ≤ 256 ∧ 256 < (List.replicate 257 (0x01#8)).length :=
  ⟨rfl, by decide, by decide, by rw [List.length_replicate], by rw [List.length_replicate]; decide⟩

theorem witness_TransactionsExplainStep : ∃ t, step selfStore = .next t := ⟨_, rfl⟩

/-- A legal Faulted state for each code that is recorded, and two different ones with equal ports. -/
theorem witness_FaultPortLosesNothing :
    ({ pastBound with status := .faulted ⟨.oobAddr, 254, 256⟩ } : State).legal = true ∧
    ({ lowStack with mem := [(16, 0x45#8), (17, 8#8)], status := .faulted ⟨.oobReg, 16, 8⟩ } : State).legal = true ∧
    ({ State.reset with status := .faulted ⟨.unknownInstruction, 0, 0⟩ } : State).legal = true ∧
    ({ lowStack with status := .faulted ⟨.stackOverflow, 16, 0⟩ } : State).legal = true ∧
    ({ topStack with status := .faulted ⟨.stackUnderflow, 16, 255⟩ } : State).legal = true ∧
    ({ topPopped with status := .faulted ⟨.stackUnderflow, 16, 255⟩ } : State).legal = true ∧
    ({ topStack with status := .faulted ⟨.stackUnderflow, 16, 255⟩ } : State).faultPort =
      ({ topPopped with status := .faulted ⟨.stackUnderflow, 16, 255⟩ } : State).faultPort := by decide

theorem witness_RunEndIsUnique : (∃ t, RunEnds lastHlt t) ∧ Halts lastHlt :=
  ⟨⟨_, ⟨1, rfl⟩, by decide⟩, 1, _, rfl, rfl⟩

theorem witness_PlacedWordRunsNext : State.reset.status = .running ∧ State.reset.mem.wf = true ∧
    State.reset.pc ≤ 253 ∧ decodeTableWord 24 0x0302A2 = some (.mul 2#8 3#8) := by decide

end Sys2Proof.Machine.Tests
end

section
/-! Proofs of the statements about the state: who may step, and what writes FL, the output log and the run status
(10_state.md R23, R29, R30, R33). -/

namespace Sys2Proof.Machine

/-! ## What each instruction does to FL, the output log and the run status -/

/-- Only CMP writes FL (10_state.md R23). -/
theorem ExecCase.fl_eq_or_cmp {s t : State} {i : Instr} (h : ExecCase s i t) :
    t.fl = s.fl ∨ ∃ regA regB, i = .cmp regA regB := by
  cases h with
  | cmp a b => exact .inr ⟨a, b, rfl⟩
  | _ => exact .inl (by simp)

/-- Only PRN writes the output log (10_state.md R33). -/
theorem ExecCase.out_eq_or_prn {s t : State} {i : Instr} (h : ExecCase s i t) :
    t.out = s.out ∨ ∃ op1, i = .prn op1 := by
  cases h with
  | prn r => exact .inr ⟨r, rfl⟩
  | _ => exact .inl (by simp)

/-- HLT halts; every other instruction takes a fault or leaves the run status as it was (10_state.md R30). -/
theorem ExecCase.status_cases {s t : State} {i : Instr} (h : ExecCase s i t) :
    (i = .hlt ∧ t.status = .halted) ∨ (i ≠ .hlt ∧ ((∃ e, t = takeFault e s) ∨ t.status = s.status)) := by
  cases h with
  | hlt => exact .inl ⟨rfl, rfl⟩
  | oobReg i b bad => exact .inr ⟨by rintro rfl; simp [firstBadRegister, registerOperands] at bad, .inl ⟨_, rfl⟩⟩
  | pushOverflow | callOverflow | popUnderflow | retUnderflow => exact .inr ⟨nofun, .inl ⟨_, rfl⟩⟩
  | _ => exact .inr ⟨nofun, .inr (by simp)⟩

/-! ## No instruction reads FL -/

/-- The one register operand is bad when it is the first bad one. -/
theorem find_bad_singleton {a b : Byte} (h : [a].find? (fun b => decide (7 < b.toNat)) = some b) :
    a = b ∧ ¬ a.toNat < 8 := by
  obtain ⟨hbad, hab⟩ : 7 < a.toNat ∧ a = b := by simpa using h
  exact ⟨hab, by omega⟩

/-- Of two register operands the first bad one is op1, or op2 after an op1 that names a register. -/
theorem find_bad_pair {a b c : Byte} (h : [a, c].find? (fun b => decide (7 < b.toNat)) = some b) :
    (a = b ∧ ¬ a.toNat < 8) ∨ (c = b ∧ a.toNat < 8 ∧ ¬ c.toNat < 8) := by
  by_cases ha : a.toNat < 8
  · rw [List.find?_cons_of_neg (by simp; omega)] at h
    obtain ⟨hc, hbad⟩ := find_bad_singleton h
    exact .inr ⟨hc, ha, hbad⟩
  · rw [find_bad_first ha] at h
    exact .inl ⟨Option.some.inj h, ha⟩

/-- An instruction with a bad register operand takes the fault of the first one (40_engine.md R72). -/
theorem exec_bad_register {i : Instr} {b : Byte} (s : State) (h : firstBadRegister i = some b) :
    exec i s = .next (takeFault ⟨.oobReg, b.toNat⟩ s) := by
  cases i with
  | hlt | ret => cases h
  | ldi r v => obtain ⟨rfl, hr⟩ := find_bad_singleton h; rw [exec, execLdi_eq, dif_neg hr]
  | prn r => obtain ⟨rfl, hr⟩ := find_bad_singleton h; rw [exec, execPrn_eq, dif_neg hr]
  | push r => obtain ⟨rfl, hr⟩ := find_bad_singleton h; rw [exec, execPush_eq, dif_neg hr]
  | pop r => obtain ⟨rfl, hr⟩ := find_bad_singleton h; rw [exec, execPop_eq, dif_neg hr]
  | call r => obtain ⟨rfl, hr⟩ := find_bad_singleton h; rw [exec, execCall_eq, dif_neg hr]
  | add a c =>
    obtain ⟨rfl, ha⟩ | ⟨rfl, ha, hc⟩ := find_bad_pair h
    · rw [exec, execAdd_eq, dif_neg ha]
    · rw [exec, execAdd_eq, dif_pos ha, dif_neg hc]
  | mul a c =>
    obtain ⟨rfl, ha⟩ | ⟨rfl, ha, hc⟩ := find_bad_pair h
    · rw [exec, execMul_eq, dif_neg ha]
    · rw [exec, execMul_eq, dif_pos ha, dif_neg hc]
  | cmp a c =>
    obtain ⟨rfl, ha⟩ | ⟨rfl, ha, hc⟩ := find_bad_pair h
    · rw [exec, execCmp_eq, dif_neg ha]
    · rw [exec, execCmp_eq, dif_pos ha, dif_neg hc]

/-- The converse of `exec_cases`: the cases are exact. -/
theorem ExecCase.exec_eq {s t : State} {i : Instr} (h : ExecCase s i t) : exec i s = .next t := by
  cases h with
  | oobReg i b bad => exact exec_bad_register s bad
  | pushOverflow r ok zero => rw [exec, execPush_eq, dif_pos ok, if_pos zero]
  | callOverflow r ok zero => rw [exec, execCall_eq, dif_pos ok, if_pos zero]
  | popUnderflow r ok top => rw [exec, execPop_eq, dif_pos ok]; exact if_pos top
  | retUnderflow top => rw [exec, execRet_eq, if_pos top]
  | ldi r v ok => rw [exec, execLdi_eq, dif_pos ok]
  | prn r ok => rw [exec, execPrn_eq, dif_pos ok]
  | hlt => exact execHlt_eq s
  | add a b oka okb => rw [exec, execAdd_eq, dif_pos oka, dif_pos okb]
  | mul a b oka okb => rw [exec, execMul_eq, dif_pos oka, dif_pos okb]
  | cmp a b oka okb => rw [exec, execCmp_eq, dif_pos oka, dif_pos okb]
  | push r ok pos => rw [exec, execPush_eq, dif_pos ok, if_neg pos]
  | call r ok pos => rw [exec, execCall_eq, dif_pos ok, if_neg pos]
  | pop r ok below => rw [exec, execPop_eq, dif_pos ok]; exact if_neg below
  | ret below => rw [exec, execRet_eq, if_neg below]

/-- Another value of FL selects the same case, for no case reads FL: a CMP overwrites it, the others carry it along. -/
theorem ExecCase.replace_fl {s t : State} {i : Instr} (h : ExecCase s i t) (fl : Byte) :
    ∃ fl', ExecCase { s with fl := fl } i { t with fl := fl' } := by
  cases h with
  | cmp a b oka okb => exact ⟨_, .cmp (s := { s with fl := fl }) a b oka okb⟩
  | _ => exact ⟨fl, by constructor <;> assumption⟩

/-- A byte outside the table decodes to no instruction (40_engine.md R71). -/
theorem decode_unlisted {l : Latch} (h : l.ir ∉ opcodeBytes) : decode l = .error (.unknownInstruction l.ir) := by
  cases hd : decode l with
  | error e => rw [(decode_error_cases hd).2]
  | ok i =>
    have := decode_cases hd
    simp only [opcodeBytes, List.mem_cons] at h
    tauto

/-- A step from the same state with another FL ends in the same state but for FL: the fetch reads memory and pc alone. -/
theorem step_replace_fl {s t : State} (fl : Byte) (h : step s = .next t) :
    ∃ fl', step { s with fl := fl } = .next { t with fl := fl' } := by
  obtain ⟨hr, ⟨hpc, rfl⟩ | ⟨hpc, hir, rfl⟩ | ⟨hpc, i, hd, hx⟩⟩ := step_cases h
  · exact ⟨fl, step_fetch_fault (s := { s with fl := fl }) hr hpc⟩
  · exact ⟨fl, step_unknown (s := { s with fl := fl }) hr hpc (decode_unlisted hir)⟩
  · obtain ⟨fl', hc⟩ := (exec_cases hx).replace_fl fl
    have hf : fetchDecode { s with fl := fl } = .ok i := fetchDecode_eq hpc hd
    exact ⟨fl', (step_executes (s := { s with fl := fl }) hr hf).trans hc.exec_eq⟩

/-- The flags of a comparison are one of the three one-hot bytes (42_alu.md R89). -/
theorem compareFlags_mem (a b : Nat) : compareFlags a b ∈ [0x04#8, 0x02#8, 0x01#8] := by
  unfold compareFlags
  split
  · decide
  · split <;> decide

/-! ## The printed digits of a byte -/

/-- The digits of a byte are one, two or three digits of its decimal numeral, the first of more than one not 0
(41_load_output.md R84). -/
theorem decimalDigits_cases (v : Byte) :
    (∃ x < 10, v.toNat = x ∧ decimalDigits v = [decimalDigit x]) ∨
    (∃ y < 10, ∃ x < 10, y ≠ 0 ∧ v.toNat = 10 * y + x ∧ decimalDigits v = [decimalDigit y, decimalDigit x]) ∨
    (∃ z < 10, ∃ y < 10, ∃ x < 10, z ≠ 0 ∧ v.toNat = 10 * (10 * z + y) + x ∧
      decimalDigits v = [decimalDigit z, decimalDigit y, decimalDigit x]) := by
  have hv := v.isLt
  simp only [decimalDigits]
  split
  · exact .inl ⟨_, ‹_›, rfl, rfl⟩
  · split
    · exact .inr (.inl ⟨v.toNat / 10, by omega, v.toNat % 10, by omega, by omega, by omega, rfl⟩)
    · exact .inr (.inr ⟨v.toNat / 100, by omega, v.toNat / 10 % 10, by omega, v.toNat % 10, by omega, by omega,
        by omega, rfl⟩)

/-- A decimal digit is one of the characters 0 to 9. -/
theorem decimalDigit_range {n : Nat} (h : n < 10) : 48 ≤ (decimalDigit n).toNat ∧ (decimalDigit n).toNat ≤ 57 := by
  rw [decimalDigit_toNat h]
  omega

/-- A printed line is the decimal numeral of the byte and one line break (41_load_output.md R84). -/
theorem printLine_printsDecimal : Claims.PrintsDecimal := by
  intro v
  refine ⟨decimalDigits v, rfl, ?_⟩
  obtain ⟨x, hx, hv, hd⟩ | ⟨y, hy, x, hx, hy0, hv, hd⟩ | ⟨z, hz, y, hy, x, hx, hz0, hv, hd⟩ := decimalDigits_cases v
  · rw [hd, hv]
    exact ⟨by simp, by simp [decimalDigit_range, *], by simp, by simp [decimalDigit_toNat, *]⟩
  · rw [hd, hv]
    exact ⟨by simp, by simp [decimalDigit_range, *], by simp [decimalDigit_eq_zero, *], by simp [decimalDigit_toNat, *]⟩
  · rw [hd, hv]
    exact ⟨by simp, by simp [decimalDigit_range, *], by simp [decimalDigit_eq_zero, *], by simp [decimalDigit_toNat, *]⟩

/-! ## The statements -/

/-- Settles O7: `step` answers the reason `stopReason` gives, and an answered state excludes one. -/
theorem stoppedCoreTakesNoStep : Obligations.StoppedCoreTakesNoStep := by
  refine ⟨fun s h => ?_, fun s rec h => ?_, fun s t h => (step_cases h).1⟩
  · simp only [step, stopReason, h]
  · simp only [step, stopReason, h]

/-- Settles O32, from the exact cases of `exec`: only CMP's writes FL, and no case mentions the FL it starts from. -/
theorem onlyCmpTouchesFlags : Obligations.OnlyCmpTouchesFlags := by
  refine ⟨fun i s t h hne => (exec_cases h).fl_eq_or_cmp.resolve_left hne, fun regA regB s t hw h => ?_,
    fun s t fl h => step_replace_fl fl h⟩
  obtain ⟨ha, hb⟩ : regA.toNat < 8 ∧ regB.toNat < 8 := by simpa [Instr.wellFormed, namesReg] using hw
  rw [exec, execCmp_eq, dif_pos ha, dif_pos hb] at h
  cases h
  exact compareFlags_mem _ _

/-- Settles O35: the log's frame by the cases of `exec`, the printed text by the digits of a byte. -/
theorem outputLogGrowsOnlyByPrn : Obligations.OutputLogGrowsOnlyByPrn :=
  ⟨fun op1 _ h => ⟨_, (ExecCase.prn op1 h).exec_eq, rfl⟩,
    fun _ _ _ h hne => (exec_cases h).out_eq_or_prn.resolve_left hne,
    fun gpr s => resetWith_out gpr s.mem, fun _ => List.flatMap_def, printLine_printsDecimal⟩

/-- Settles O36, by what each case of `exec` does to the status: a step that stops took a fault or ran the decoded HLT. -/
theorem statusWrittenOnlyByHltAndFaults : Obligations.StatusWrittenOnlyByHltAndFaults := by
  refine ⟨fun i s t hr h => ?_, fun s t h hstop => ?_, fun s t hne h => hne (step_cases h).1,
    fun gpr s => resetWith_status gpr s.mem⟩
  · obtain ⟨hi, ht⟩ | ⟨hi, ⟨e, rfl⟩ | ht⟩ := (exec_cases h).status_cases
    · simp [hi, ht]
    · simp [hi]
    · simp [hi, ht, hr]
  · obtain ⟨hr, ⟨_, rfl⟩ | ⟨_, _, rfl⟩ | ⟨_, i, hd, hx⟩⟩ := step_cases h
    · exact .inr ⟨_, _, rfl⟩
    · exact .inr ⟨_, _, rfl⟩
    · obtain ⟨rfl, ht⟩ | ⟨_, ⟨e, rfl⟩ | ht⟩ := (exec_cases hx).status_cases
      · exact .inl ⟨ht, by simpa using decode_cases hd⟩
      · exact .inr ⟨_, _, rfl⟩
      · exact absurd (ht.trans hr) hstop

end Sys2Proof.Machine

end

section
/-! Proofs of the statements about the encoding: which bytes select an instruction, what an unlisted byte does, and what a
slot that is not used may hold (30_encoding.md R55, R60, R62, R63; 60_exceptions.md R101). -/

namespace Sys2Proof.Machine

/-! ## The ten opcode bytes -/

/-- The decoder answers an instruction exactly for the bytes of the table (30_encoding.md R60). -/
theorem decode_ok_iff (l : Latch) : (∃ i, decode l = .ok i) ↔ l.ir ∈ opcodeBytes := by
  constructor
  · rintro ⟨i, hd⟩
    have := decode_cases hd
    simp only [opcodeBytes, List.mem_cons]
    tauto
  · intro hmem
    cases hd : decode l with
    | ok i => exact ⟨i, rfl⟩
    | error e => exact absurd hmem (decode_error_cases hd).1

/-- No two rows of the table share an OP field, so a row's OP field comes with that row's N alone (30_encoding.md R55, R59). -/
theorem opField_injOn_opcodeBytes : ∀ a ∈ opcodeBytes, ∀ b ∈ opcodeBytes, opField a = opField b → a = b := by decide

/-- A byte with the OP field of a row and another N is not in the table. -/
theorem not_mem_opcodeBytes_of_fields {ir row : Byte} (hrow : row ∈ opcodeBytes) (hop : opField ir = opField row)
    (hn : countField ir ≠ countField row) : ir ∉ opcodeBytes :=
  fun hir => hn (congrArg countField (opField_injOn_opcodeBytes ir hir row hrow hop))

/-- No row of the table has N = 3. -/
theorem countField_ne_three : ∀ ir ∈ opcodeBytes, countField ir ≠ 3#2 := by decide

/-- The numbers of the listed bytes are the ten of the table, each once. -/
theorem listed_perm : ((List.range 256).filter fun n => decide (BitVec.ofNat 8 n ∈ opcodeBytes)).Perm
    (opcodeBytes.map BitVec.toNat) := by
  refine (List.perm_ext_iff_of_nodup (List.nodup_range.filter _) (by decide)).mpr fun n => ?_
  simp only [List.mem_filter, List.mem_range, decide_eq_true_eq, List.mem_map]
  constructor
  · rintro ⟨hn, hmem⟩
    exact ⟨_, hmem, Nat.mod_eq_of_lt hn⟩
  · rintro ⟨b, hb, rfl⟩
    exact ⟨b.isLt, by rwa [BitVec.ofNat_toNat, BitVec.setWidth_eq]⟩

/-- All but ten of the 256 bytes are unlisted (30_encoding.md R63). -/
theorem unlisted_length :
    ((List.range 256).filter fun n => decide (BitVec.ofNat 8 n ∉ opcodeBytes)).length = 246 := by
  have hsplit := List.length_eq_length_filter_add (l := List.range 256)
    fun n => decide (BitVec.ofNat 8 n ∈ opcodeBytes)
  have hten : (opcodeBytes.map BitVec.toNat).length = 10 := rfl
  rw [List.length_range, listed_perm.length_eq, hten] at hsplit
  simp only [decide_not]
  omega

/-! ## The fetch bound -/

/-- From pc 254 up every step records OOB_ADDR with the lowest address above 255, which is pc itself or 256
(40_engine.md R68). -/
theorem step_fetchFaultsPast253 : Claims.FetchFaultsPast253 := fun s hr hpc =>
  ⟨max s.pc 256, by omega, by omega, by omega, step_fetch_fault hr hpc⟩

/-! ## The statements -/

/-- Settles O2: the decoder's two answers are told apart by membership in the table, and a row's OP field fixes the row. -/
theorem wholeByteSelects : Obligations.WholeByteSelects := by
  refine ⟨decode_ok_iff, fun l row hrow hop hn => decode_unlisted (not_mem_opcodeBytes_of_fields hrow hop hn),
    fun op1 op2 ir hir => decode_unlisted ?_⟩
  have hout : ∀ b ∈ [0x02#8, 0x42#8, 0xC2#8], b ∉ opcodeBytes := by decide
  exact hout ir hir

/-- Settles O9: an unlisted byte fails to decode, the step takes that fault, and 256 - 10 bytes are unlisted. -/
theorem unlistedOpcodeFaults : Obligations.UnlistedOpcodeFaults :=
  ⟨fun _ hr hpc hir => step_unknown hr hpc (decode_unlisted hir),
    fun ir hn hir => countField_ne_three ir hir hn, by decide, unlisted_length⟩

/-- Settles O4, row by row: an opcode byte with an unused slot decodes to its row without that slot. -/
theorem unusedSlotsIgnored : Obligations.UnusedSlotsIgnored := by
  refine ⟨fun ir hir op1 x y => ?_, fun ir hir x y x' y' => ?_, step_fetchFaultsPast253⟩
  · simp only [List.mem_cons, List.not_mem_nil, or_false] at hir
    obtain rfl | rfl | rfl | rfl := hir <;> rfl
  · simp only [List.mem_cons, List.not_mem_nil, or_false] at hir
    obtain rfl | rfl := hir <;> rfl

end Sys2Proof.Machine

end

section
/-! Proofs of the statements about the engine: the three reads a step begins with, and HLT (40_engine.md R68, R79). -/

namespace Sys2Proof.Machine

/-! ## The transactions of the fetch -/

/-- Whatever the latch decodes to, a Running core within the fetch bound issues its three reads first (40_engine.md R68). -/
theorem fetch_reads_isPrefix_stepTransactions {s : State} (hr : s.status = .running) (hpc : s.pc ≤ 253) :
    [readTransaction s s.pc, readTransaction s (s.pc + 1), readTransaction s (s.pc + 2)] <+: stepTransactions s := by
  simp only [stepTransactions, stopReason_none.mpr hr, fetch_eq hpc]
  exact List.prefix_append _ _

/-- A failing fetch bound issues no transaction, whatever the run status (40_engine.md R68). -/
theorem stepTransactions_eq_nil {s : State} (hpc : 254 ≤ s.pc) : stepTransactions s = [] := by
  rw [stepTransactions, fetch_error hpc]
  cases stopReason s <;> rfl

/-! ## The statements -/

/-- Settles O5: the fetch answers the latch at the pc, its reads head the transactions, and past 253 it raises
before any of them. -/
theorem fetchReadsThreeBytes : Obligations.FetchReadsThreeBytes :=
  ⟨fun _ => fetch_eq, fun _ => fetch_reads_isPrefix_stepTransactions, fun _ => stepTransactions_eq_nil,
    step_fetchFaultsPast253⟩

/-- Settles O12: the one case of `exec` on HLT ends in `.halt`, which sets the status alone, and a Halted core has no
step. -/
theorem hltHalts : Obligations.HltHalts := by
  refine ⟨fun _ _ => ⟨rfl, rfl⟩, fun s => ⟨applyEnding .halt s, ExecCase.hlt.exec_eq, ?_⟩, step_fetchFaultsPast253⟩
  have hstatus : (applyEnding .halt s).status = .halted := applyEnding_halt_status s
  exact ⟨hstatus, applyEnding_halt_pc s, fun j _ => applyEnding_reg .halt s j, applyEnding_fl .halt s,
    applyEnding_out .halt s, applyEnding_readByte .halt s, stoppedCoreTakesNoStep.1 _ hstatus⟩

end Sys2Proof.Machine

end

section
/-! Proofs of the statements about LDI and PRN (41_load_output.md R83, R84), after the facts they share with other
instructions: the rejected register byte, and the frames of a register write and of an ending. -/

namespace Sys2Proof.Machine

/-! ## The rejected register byte -/

/-- An instruction whose one register operand is op1 rejects an op1 above 7 (40_engine.md R72). -/
theorem rejectsRegister_of_registerOperands {f : Byte → Instr} (hf : ∀ b, registerOperands (f b) = [b]) :
    Claims.RejectsRegister f := by
  intro op1 s hbad
  have hfirst : firstBadRegister (f op1) = some op1 := by
    rw [firstBadRegister, hf]
    exact find_bad_first (by omega)
  exact exec_bad_register s hfirst

/-! ## Frames -/

/-- An ending moves pc or the status, so a frame on registers holds after it as before. -/
theorem RegsSameBut.applyEnding {ds : List Reg} {s t : State} (h : RegsSameBut ds s t) (o : Ending) :
    RegsSameBut ds s (applyEnding o t) :=
  fun j hj => (applyEnding_reg o t j).trans (h j hj)

/-- An ending writes no memory. -/
theorem MemSame.applyEnding {s t : State} (h : MemSame s t) (o : Ending) : MemSame s (applyEnding o t) :=
  fun a => (applyEnding_readByte o t a).trans (h a)

/-- A register write leaves every other register (10_state.md R37). -/
theorem regsSameBut_writeReg (s : State) (i : Reg) (v : Nat) : RegsSameBut [i] s (s.writeReg i v) := by
  intro j hj
  rw [writeReg_reg, if_neg (List.mem_singleton.not.mp hj)]

/-- A byte written to a register is read back as it stands. -/
theorem writeReg_toNat_reg_self (s : State) (i : Reg) (v : Byte) : (s.writeReg i v.toNat).reg i = v := by
  rw [writeReg_reg, if_pos rfl, BitVec.ofNat_toNat, BitVec.setWidth_eq]

/-! ## The printed text -/

/-- An emitted value adds its line to the printed text (10_state.md R38). -/
theorem emit_printed (s : State) (v : Byte) : (s.emit v).printed = s.printed ++ printLine v := by
  simp [State.printed]

/-- An ending prints nothing. -/
theorem applyEnding_printed (o : Ending) (s : State) : (applyEnding o s).printed = s.printed :=
  congrArg (List.flatMap printLine) (applyEnding_out o s)

/-! ## The statements -/

/-- Settles O10: the effect is one register write of the immediate byte, then the ending, and the faults are the shared
ones. -/
theorem ldiLoadsImmediate : Obligations.LdiLoadsImmediate := by
  refine ⟨fun _ _ => ⟨rfl, rfl⟩, fun op1 imm8 s hop => ⟨_, (ExecCase.ldi op1 imm8 hop).exec_eq, ?_⟩,
    fun _ => rejectsRegister_of_registerOperands fun _ => rfl, step_fetchFaultsPast253⟩
  have hdest : (s.writeReg ⟨op1.toNat, hop⟩ imm8.toNat).reg ⟨op1.toNat, hop⟩ = imm8 := writeReg_toNat_reg_self ..
  have hregs := regsSameBut_writeReg s ⟨op1.toNat, hop⟩ imm8.toNat
  have hmem : MemSame s (s.writeReg ⟨op1.toNat, hop⟩ imm8.toNat) := writeReg_readByte s _ _
  exact ⟨(applyEnding_reg ..).trans hdest, hregs.applyEnding _, by simp, by simp, by simp, by simp, hmem.applyEnding _⟩

/-- Settles O11: the effect is one emitted value, then the ending; the new line is the value's decimal numeral, and the
faults are the shared ones. -/
theorem prnAppendsOutput : Obligations.PrnAppendsOutput := by
  refine ⟨fun _ _ => ⟨rfl, rfl⟩, fun op1 s hop => ⟨_, (ExecCase.prn op1 hop).exec_eq, ?_⟩, printLine_printsDecimal,
    rejectsRegister_of_registerOperands fun _ => rfl, step_fetchFaultsPast253⟩
  have hregs : RegsSameBut [] s (s.emit (s.reg ⟨op1.toNat, hop⟩)) := fun j _ => emit_reg s _ j
  have hmem : MemSame s (s.emit (s.reg ⟨op1.toNat, hop⟩)) := emit_readByte s _
  exact ⟨by simp, (applyEnding_printed ..).trans (emit_printed ..), by simp, hregs.applyEnding _, by simp, by simp,
    hmem.applyEnding _⟩

end Sys2Proof.Machine

end

section
/-! Proofs of the statements about the ALU instructions ADD, MUL and CMP (42_alu.md R87 to R89), after the facts they
share: the two rejected register bytes, a register write that ends in an advance, and the three outcomes of a comparison. -/

namespace Sys2Proof.Machine

/-! ## The rejected register bytes -/

/-- An instruction whose register operands are op1 and op2 rejects a byte above 7, op1 checked first (40_engine.md R72). -/
theorem rejectsRegisters_of_registerOperands {f : Byte → Byte → Instr} (hf : ∀ a b, registerOperands (f a b) = [a, b]) :
    Claims.RejectsRegisters f := by
  refine fun op1 op2 s => ⟨fun hbad => ?_, fun hok hbad => ?_⟩
  · have hfirst : firstBadRegister (f op1 op2) = some op1 := by
      rw [firstBadRegister, hf]
      exact find_bad_first (by omega)
    exact exec_bad_register s hfirst
  · have hfirst : firstBadRegister (f op1 op2) = some op2 := by
      rw [firstBadRegister, hf]
      exact find_bad_second hok (by omega)
    exact exec_bad_register s hfirst

/-! ## A register write and an advance -/

/-- A written register holds the value mod 256 (10_state.md R37). -/
theorem writeReg_reg_self_toNat (s : State) (i : Reg) (v : Nat) : ((s.writeReg i v).reg i).toNat = v % 256 := by
  rw [writeReg_reg, if_pos rfl, BitVec.toNat_ofNat]

/-- An instruction that writes one register and advances changes that register and pc, and nothing else. -/
theorem writeReg_advance (s : State) (i : Reg) (v w : Nat) {t : State}
    (ht : t = applyEnding (.advance w) (s.writeReg i v)) :
    (t.reg i).toNat = v % 256 ∧ RegsSameBut [i] s t ∧ t.pc = s.pc + w ∧
    t.fl = s.fl ∧ t.status = s.status ∧ t.out = s.out ∧ MemSame s t := by
  subst ht
  have hdest : ((applyEnding (.advance w) (s.writeReg i v)).reg i).toNat = v % 256 := by
    rw [applyEnding_reg, writeReg_reg_self_toNat]
  have hmem : MemSame s (s.writeReg i v) := writeReg_readByte s i v
  exact ⟨hdest, (regsSameBut_writeReg s i v).applyEnding _, by simp, by simp, by simp, by simp, hmem.applyEnding _⟩

/-! ## The three outcomes of a comparison -/

/-- A lesser first operand sets L alone (42_alu.md R89). -/
theorem compareFlags_of_lt {a b : Nat} (h : a < b) : compareFlags a b = 0b00000100#8 := if_pos h

/-- A greater first operand sets G alone (42_alu.md R89). -/
theorem compareFlags_of_gt {a b : Nat} (h : b < a) : compareFlags a b = 0b00000010#8 := by
  rw [compareFlags, if_neg (Nat.lt_asymm h), if_pos h]

/-- Equal operands set E alone (42_alu.md R89). -/
theorem compareFlags_self (a : Nat) : compareFlags a a = 0b00000001#8 := by
  rw [compareFlags, if_neg (Nat.lt_irrefl a), if_neg (Nat.lt_irrefl a)]

/-! ## The statements -/

/-- Settles O15: the effect is the comparison's flags, one outcome for each order of the operands, then the ending; the
faults are the shared ones. -/
theorem cmpSetsOneFlag : Obligations.CmpSetsOneFlag := by
  refine ⟨fun _ _ => ⟨rfl, rfl⟩, fun op1 op2 s h1 h2 => ⟨_, (ExecCase.cmp op1 op2 h1 h2).exec_eq, ?_⟩,
    rejectsRegisters_of_registerOperands fun _ _ => rfl, step_fetchFaultsPast253⟩
  rw [applyEnding_fl]
  refine ⟨compareFlags_of_lt, compareFlags_of_gt, fun heq => ?_, fun j _ => applyEnding_reg _ _ j, by simp, by simp,
    by simp, fun a => applyEnding_readByte _ _ a⟩
  rw [heq]
  exact compareFlags_self _

/-- Settles O13: the effect is one register write of the sum, then the ending, and the faults are the shared ones. -/
theorem addWritesSumMod256 : Obligations.AddWritesSumMod256 :=
  ⟨fun _ _ => ⟨rfl, rfl⟩,
    fun op1 op2 s h1 h2 => ⟨_, (ExecCase.add op1 op2 h1 h2).exec_eq, writeReg_advance s ⟨op1.toNat, h1⟩ _ 3 rfl⟩,
    rejectsRegisters_of_registerOperands fun _ _ => rfl, step_fetchFaultsPast253⟩

/-- Settles O14: the effect is one register write of the product, then the ending, and the faults are the shared ones. -/
theorem mulWritesProductMod256 : Obligations.MulWritesProductMod256 :=
  ⟨fun _ _ => ⟨rfl, rfl⟩,
    fun op1 op2 s h1 h2 => ⟨_, (ExecCase.mul op1 op2 h1 h2).exec_eq, writeReg_advance s ⟨op1.toNat, h1⟩ _ 3 rfl⟩,
    rejectsRegisters_of_registerOperands fun _ _ => rfl, step_fetchFaultsPast253⟩

end Sys2Proof.Machine

end

section
/-! Proofs of the statements about the stack instructions PUSH, POP, CALL and RET (43_stack_control.md R92 to R95), after
the facts they share: frames one after another, the effect of a push-type instruction, and the value a POP increments. -/

namespace Sys2Proof.Machine

/-! ## Frames -/

/-- Two frames on registers one after the other are a frame outside both lists. -/
theorem RegsSameBut.trans {ds es : List Reg} {s t u : State} (hst : RegsSameBut ds s t) (htu : RegsSameBut es t u) :
    RegsSameBut (ds ++ es) s u := by
  intro j hj
  rw [List.mem_append, not_or] at hj
  obtain ⟨hds, hes⟩ := hj
  exact (htu j hes).trans (hst j hds)

/-- An ending writes no memory, so a frame outside one address holds after it as before. -/
theorem MemSameBut.applyEnding {b : Nat} {s t : State} (h : MemSameBut b s t) (o : Ending) :
    MemSameBut b s (applyEnding o t) :=
  fun a ha => (applyEnding_readByte o t a).trans (h a ha)

/-! ## The effect of a push-type instruction -/

/-- A push-type instruction changes no register but R7. -/
theorem regsSameBut_pushed (s : State) (v : Byte) : RegsSameBut [7] s (pushed s v) :=
  regsSameBut_writeReg s 7 (s.sp - 1)

/-- A push-type instruction changes no byte but the one at the decremented stack pointer (20_memory.md R42). -/
theorem memSameBut_pushed {s : State} (hwf : s.mem.wf = true) (v : Byte) : MemSameBut (s.sp - 1) s (pushed s v) := by
  intro a ha
  rw [pushed_readByte hwf, if_neg ha]

/-- The pushed byte stands at the decremented stack pointer. -/
theorem pushed_readByte_top {s : State} (hwf : s.mem.wf = true) (v : Byte) :
    (pushed s v).readByte (s.sp - 1) = v := by
  rw [pushed_readByte hwf, if_pos rfl]

/-- The decremented stack pointer is a byte: R7 holds it as it stands. -/
theorem decremented_sp_toNat (s : State) : (BitVec.ofNat 8 (s.sp - 1)).toNat = s.sp - 1 := by
  have := sp_le_255 s
  rw [BitVec.toNat_ofNat]
  omega

/-! ## The value a POP increments -/

/-- The value a POP increments is a byte: R7 as it stands, or the popped byte. -/
theorem popIncremented_le_255 (op1 : Byte) (s : State) : popIncremented op1 s ≤ 255 := by
  have hv := (s.readByte s.sp).isLt
  have hsp := sp_le_255 s
  unfold popIncremented
  split <;> omega

/-! ## The statements -/

/-- Settles O16: the effect is one push of the register read after the decrement, then an advance; the overflow is the other
case of the decrement, and the other faults are the shared ones. -/
theorem pushStoresBelow : Obligations.PushStoresBelow := by
  refine ⟨fun _ _ => ⟨rfl, rfl⟩, fun op1 s hop hwf hsp => ⟨_, (ExecCase.push op1 hop hsp).exec_eq, ?_⟩,
    fun op1 _ hop hzero => (ExecCase.pushOverflow op1 hop hzero).exec_eq,
    rejectsRegister_of_registerOperands fun _ => rfl, step_fetchFaultsPast253⟩
  generalize (if op1 = 7#8 then BitVec.ofNat 8 (s.sp - 1) else s.reg ⟨op1.toNat, hop⟩) = v
  have hstored := pushed_readByte_top hwf v
  exact ⟨(applyEnding_sp ..).trans (pushed_sp s v), (regsSameBut_pushed s v).applyEnding _,
    (applyEnding_readByte ..).trans hstored, (memSameBut_pushed hwf v).applyEnding _,
    by simp, by simp, by simp, by simp⟩

/-- Settles O18: the effect is one push of pc + 2, then a jump to the register read after the decrement; the overflow is the
other case of the decrement, and the other faults are the shared ones. -/
theorem callStoresReturnAddress : Obligations.CallStoresReturnAddress := by
  refine ⟨fun _ _ => ⟨rfl, rfl⟩, fun op1 s hop hwf hsp => ⟨_, (ExecCase.call op1 hop hsp).exec_eq, ?_⟩,
    fun op1 _ hop hzero => (ExecCase.callOverflow op1 hop hzero).exec_eq,
    rejectsRegister_of_registerOperands fun _ => rfl, step_fetchFaultsPast253⟩
  have hstored := pushed_readByte_top hwf (BitVec.ofNat 8 (s.pc + 2))
  have hexact : s.pc ≤ 253 → (BitVec.ofNat 8 (s.pc + 2)).toNat = s.pc + 2 := by
    intro hpc
    rw [BitVec.toNat_ofNat]
    omega
  rw [applyEnding_readByte, hstored]
  refine ⟨(applyEnding_sp ..).trans (pushed_sp s _), (regsSameBut_pushed s _).applyEnding _, rfl, hexact,
    (memSameBut_pushed hwf _).applyEnding _, ?_, by simp, by simp, by simp⟩
  rw [applyEnding_jump_pc, apply_ite BitVec.toNat, decremented_sp_toNat]

/-- Settles O17: the effect is two register writes, the destination's and then R7's, which D12 orders so that the second is
the one that lasts, then an advance; the underflow is the other case of the increment. -/
theorem popLoadsThenRaises : Obligations.PopLoadsThenRaises := by
  refine ⟨fun _ _ => ⟨rfl, rfl⟩, fun op1 s hop p hp hne => ?_,
    fun op1 _ hop htop => (ExecCase.popUnderflow op1 hop htop).exec_eq,
    rejectsRegister_of_registerOperands fun _ => rfl, step_fetchFaultsPast253⟩
  obtain rfl : p = popIncremented op1 s := hp
  refine ⟨_, (ExecCase.pop op1 hop hne).exec_eq, ?_⟩
  obtain ⟨hr7, hregs, hrest⟩ := writeReg_advance (s.writeReg ⟨op1.toNat, hop⟩ (s.readByte s.sp).toNat) 7
    (popIncremented op1 s + 1) 2 rfl
  have hle := popIncremented_le_255 op1 s
  refine ⟨fun h7 => ?_, hr7.trans (Nat.mod_eq_of_lt (by omega)), (regsSameBut_writeReg s _ _).trans hregs, hrest⟩
  have hdest : (⟨op1.toNat, hop⟩ : Reg) ∉ [7] := by rwa [List.mem_singleton, regOperand_is_sp]
  exact (hregs _ hdest).trans (writeReg_toNat_reg_self ..)

/-- Settles O19: the effect is one write of R7, then a jump to the byte read; the underflow is the other case of the
increment. -/
theorem retPopsProgramCounter : Obligations.RetPopsProgramCounter := by
  refine ⟨fun _ _ => ⟨rfl, rfl⟩, fun s hne => ⟨_, (ExecCase.ret hne).exec_eq, ?_⟩,
    fun _ htop => (ExecCase.retUnderflow htop).exec_eq, step_fetchFaultsPast253⟩
  have hle := sp_le_255 s
  have hr7 : ((s.writeReg 7 (s.sp + 1)).reg 7).toNat = s.sp + 1 :=
    (writeReg_reg_self_toNat ..).trans (Nat.mod_eq_of_lt (by omega))
  have hmem : MemSame s (s.writeReg 7 (s.sp + 1)) := writeReg_readByte s _ _
  exact ⟨by simp, (congrArg BitVec.toNat (applyEnding_reg ..)).trans hr7, (regsSameBut_writeReg s _ _).applyEnding _,
    by simp, by simp, by simp, hmem.applyEnding _⟩

end Sys2Proof.Machine

end

section
/-! Proofs of the statements about faults: that they are precise and final, their order in one step, and which instruction
raises which stack fault (60_exceptions.md R103 to R105). -/

namespace Sys2Proof.Machine

/-! ## Which faults an instruction raises -/

/-- The stack check of a push-type instruction fails (60_exceptions.md R103). -/
def OverflowsStack (i : Instr) (s : State) : Prop := s.sp = 0 ∧ ∃ r, i = .push r ∨ i = .call r

/-- The stack check of a pop-type instruction fails (60_exceptions.md R103). -/
def UnderflowsStack (i : Instr) (s : State) : Prop :=
  (i = .ret ∧ s.sp = 255) ∨ ∃ r, i = .pop r ∧ popIncremented r s = 255

/-- A fault that an instruction records is that of a bad register operand or of its stack check. -/
theorem ExecCase.fault_cases {s t : State} {i : Instr} {rec : FaultRecord} (h : ExecCase s i t)
    (hr : s.status = .running) (hf : t.status = .faulted rec) :
    (rec.code = .oobReg ∧ ∃ b, firstBadRegister i = some b) ∨
    (rec.code = .stackOverflow ∧ OverflowsStack i s) ∨ (rec.code = .stackUnderflow ∧ UnderflowsStack i s) := by
  cases h with
  | oobReg i b bad => cases hf; exact .inl ⟨rfl, b, bad⟩
  | pushOverflow r ok zero => cases hf; exact .inr (.inl ⟨rfl, zero, r, .inl rfl⟩)
  | callOverflow r ok zero => cases hf; exact .inr (.inl ⟨rfl, zero, r, .inr rfl⟩)
  | popUnderflow r ok top => cases hf; exact .inr (.inr ⟨rfl, .inr ⟨r, rfl, top⟩⟩)
  | retUnderflow top => cases hf; exact .inr (.inr ⟨rfl, .inl ⟨rfl, top⟩⟩)
  | _ => simp [hr] at hf

/-- A well-formed instruction records only the fault of its stack check. -/
theorem exec_stack_fault_cases {i : Instr} {s t : State} {rec : FaultRecord} (hr : s.status = .running)
    (hw : i.wellFormed = true) (h : exec i s = .next t) (hf : t.status = .faulted rec) :
    (rec.code = .stackOverflow ∧ OverflowsStack i s) ∨ (rec.code = .stackUnderflow ∧ UnderflowsStack i s) := by
  refine ((exec_cases h).fault_cases hr hf).resolve_left ?_
  rintro ⟨-, b, hbad⟩
  rw [firstBadRegister_none.mpr hw] at hbad
  cases hbad

/-- A well-formed instruction whose push-type stack check fails takes StackOverflow. -/
theorem OverflowsStack.exec_eq {i : Instr} {s : State} (h : OverflowsStack i s) (hw : i.wellFormed = true) :
    exec i s = .next (takeFault ⟨.stackOverflow, 0⟩ s) := by
  obtain ⟨hzero, r, rfl | rfl⟩ := h
  · exact (ExecCase.pushOverflow r (of_decide_eq_true hw) hzero).exec_eq
  · exact (ExecCase.callOverflow r (of_decide_eq_true hw) hzero).exec_eq

/-- A well-formed instruction whose pop-type stack check fails takes StackUnderflow. -/
theorem UnderflowsStack.exec_eq {i : Instr} {s : State} (h : UnderflowsStack i s) (hw : i.wellFormed = true) :
    exec i s = .next (takeFault ⟨.stackUnderflow, 255⟩ s) := by
  obtain ⟨rfl, htop⟩ | ⟨r, rfl, htop⟩ := h
  · exact (ExecCase.retUnderflow htop).exec_eq
  · exact (ExecCase.popUnderflow r (of_decide_eq_true hw) htop).exec_eq

/-! ## A step that records a fault -/

/-- A step that ends Faulted took a fault: in the fetch, in the decode or in the instruction (60_exceptions.md R104). -/
theorem step_faulted {s t : State} {rec : FaultRecord} (h : step s = .next t) (hf : t.status = .faulted rec) :
    ∃ e, t = takeFault e s := by
  obtain ⟨hr, ⟨-, rfl⟩ | ⟨-, -, rfl⟩ | ⟨-, i, -, hx⟩⟩ := step_cases h
  · exact ⟨_, rfl⟩
  · exact ⟨_, rfl⟩
  · obtain ⟨-, hhalt⟩ | ⟨-, he | hsame⟩ := (exec_cases hx).status_cases
    · cases hhalt.symm.trans hf
    · exact he
    · cases (hsame.trans hr).symm.trans hf

/-! ## The register slots of a decoded latch -/

/-- The slots that the opcode byte marks as registers are the decoded instruction's register operands
(30_encoding.md R58). -/
theorem registerSlots_of_decode {l : Latch} {i : Instr} (h : decode l = .ok i) :
    Claims.registerSlots l = registerOperands i := by
  obtain ⟨ir, op1, op2⟩ := l
  obtain ⟨rfl, rfl⟩ | ⟨rfl, rfl⟩ | ⟨rfl, rfl⟩ | ⟨rfl, rfl⟩ | ⟨rfl, rfl⟩ | ⟨rfl, rfl⟩ | ⟨rfl, rfl⟩ | ⟨rfl, rfl⟩ |
    ⟨rfl, rfl⟩ | ⟨rfl, rfl⟩ := decode_cases h
  all_goals rfl

/-- A Running core within the fetch bound executes some decoded instruction when the opcode byte is listed. -/
theorem step_listed {s : State} (hr : s.status = .running) (hpc : s.pc ≤ 253) (hir : s.latch.ir ∈ opcodeBytes) :
    ∃ i, registerOperands i = Claims.registerSlots s.latch ∧ step s = exec i s := by
  obtain ⟨i, hd⟩ := (decode_ok_iff s.latch).mpr hir
  exact ⟨i, (registerSlots_of_decode hd).symm, step_executes hr (fetchDecode_eq hpc hd)⟩

/-- An instruction whose register operands are all at most 7 is well-formed. -/
theorem wellFormed_of_registerOperands {i : Instr} (h : ∀ b ∈ registerOperands i, b.toNat ≤ 7) :
    i.wellFormed = true := by
  refine firstBadRegister_none.mp (List.find?_eq_none.mpr fun b hb => ?_)
  simpa using h b hb

/-! ## The statements -/

/-- Settles O29: a step that ends Faulted took a fault, which sets the status alone, and a Faulted core has no step. -/
theorem faultsArePrecise : Obligations.FaultsArePrecise := by
  intro s t rec h hf
  have hfinal := stoppedCoreTakesNoStep.2.1 t rec hf
  obtain ⟨e, rfl⟩ := step_faulted h hf
  cases hf
  exact ⟨rfl, rfl, hfinal⟩

/-- Settles O30, check by check in the order of a step: the fetch bound, the opcode byte, the register slots (which are the
decoded instruction's operands), and for a well-formed instruction its stack check alone. -/
theorem faultPriority : Obligations.FaultPriority := by
  intro s hr
  refine ⟨fun hpc => ⟨_, step_fetch_fault hr hpc⟩, fun hpc hir => step_unknown hr hpc (decode_unlisted hir),
    fun hpc hir b hbad => ?_, fun hpc hir hok t rec h hf => ?_, step_fetchFaultsPast253⟩
  · obtain ⟨i, hops, hstep⟩ := step_listed hr hpc hir
    rw [← hops] at hbad
    exact hstep.trans (exec_bad_register s hbad)
  · obtain ⟨i, hops, hstep⟩ := step_listed hr hpc hir
    rw [← hops] at hok
    have hcases := exec_stack_fault_cases hr (wellFormed_of_registerOperands hok) (hstep.symm.trans h) hf
    exact hcases.imp And.left And.left

/-- Settles O31: a recorded stack fault has its failed check as the only cause, and a failed check is recorded. -/
theorem stackFaultsExactlyAtBounds : Obligations.StackFaultsExactlyAtBounds := by
  refine fun i s t hr hw h => ⟨⟨fun ⟨p, d, hf⟩ => ?_, fun hover => ?_⟩, ⟨fun ⟨p, d, hf⟩ => ?_, fun hunder => ?_⟩⟩
  · obtain ⟨-, hover⟩ | ⟨hcode, -⟩ := exec_stack_fault_cases hr hw h hf
    · exact hover
    · cases hcode
  · cases h.symm.trans (OverflowsStack.exec_eq hover hw)
    exact ⟨_, _, rfl⟩
  · obtain ⟨hcode, -⟩ | ⟨-, hunder⟩ := exec_stack_fault_cases hr hw h hf
    · cases hcode
    · exact hunder
  · cases h.symm.trans (UnderflowsStack.exec_eq hunder hw)
    exact ⟨_, _, rfl⟩

end Sys2Proof.Machine

end

section
/-! Proof of the statement about what a reset sets (70_reset_and_hazards.md R116), after the register values and the memory
of the reset state and the first transaction of a step. -/

namespace Sys2Proof.Machine

/-! ## The registers and the memory of the reset state -/

@[simp] theorem resetWith_reg_0 (g : ResetGpr) (m : Memory) : (State.resetWith g m).reg 0 = g.r0 := rfl
@[simp] theorem resetWith_reg_1 (g : ResetGpr) (m : Memory) : (State.resetWith g m).reg 1 = g.r1 := rfl
@[simp] theorem resetWith_reg_2 (g : ResetGpr) (m : Memory) : (State.resetWith g m).reg 2 = g.r2 := rfl
@[simp] theorem resetWith_reg_3 (g : ResetGpr) (m : Memory) : (State.resetWith g m).reg 3 = g.r3 := rfl
@[simp] theorem resetWith_reg_4 (g : ResetGpr) (m : Memory) : (State.resetWith g m).reg 4 = g.r4 := rfl
@[simp] theorem resetWith_reg_5 (g : ResetGpr) (m : Memory) : (State.resetWith g m).reg 5 = g.r5 := rfl
@[simp] theorem resetWith_reg_6 (g : ResetGpr) (m : Memory) : (State.resetWith g m).reg 6 = g.r6 := rfl
@[simp] theorem resetWith_reg_7 (g : ResetGpr) (m : Memory) : (State.resetWith g m).reg 7 = 0xF4#8 := rfl
@[simp] theorem resetWith_readByte (g : ResetGpr) (m : Memory) (a : Nat) :
    (State.resetWith g m).readByte a = m.read a := rfl

/-- A reset does not write memory (R116). -/
theorem memSame_hostReset (g : ResetGpr) (s : State) : MemSame s (hostReset g s) :=
  resetWith_readByte g s.mem

/-! ## The first transaction of a step -/

/-- The step of a Running core within the fetch bound begins with the read of the cell at pc (40_engine.md R68). -/
theorem stepTransactions_head_eq {s : State} (hr : s.status = .running) (hpc : s.pc ≤ 253) :
    (stepTransactions s).head? = some (readTransaction s s.pc) := by
  obtain ⟨rest, h⟩ := fetch_reads_isPrefix_stepTransactions hr hpc
  rw [← h]
  rfl

/-! ## The statement -/

/-- Settles O39: the fields are those of the reset state, and that state is Running at pc = 0, so its step begins with the
read at 0. -/
theorem resetSetsState : Obligations.ResetSetsState := by
  intro gpr s
  have hfetch : (stepTransactions (hostReset gpr s)).head? = some (readTransaction (hostReset gpr s) 0) :=
    stepTransactions_head_eq (resetWith_status gpr s.mem) (Nat.zero_le 253)
  refine ⟨hostReset gpr s, rfl, ?pc, ?sp, ?fl, ?status, ?out, ?r0, ?r1, ?r2, ?r3, ?r4, ?r5, ?r6,
    memSame_hostReset gpr s, hfetch⟩
  all_goals simp [hostReset]

end Sys2Proof.Machine

end

section
/-! Proofs of the statements about what one instruction or one step changes: the bytes that decode to an instruction,
the pc, memory, the registers and the transactions (10_state.md R16, R36; 20_memory.md R42; 30_encoding.md R54 to R59;
40_engine.md R74, R76, R82; 43_stack_control.md R97; 60_exceptions.md R102). -/

namespace Sys2Proof.Machine

/-! ## The encoding of a decoded instruction -/

/-- The bytes of a decoded instruction are the first bytes of its latch; the rest is the unused slots. -/
theorem encode_isPrefix_of_decode {l : Latch} {i : Instr} (h : decode l = .ok i) : encode i <+: l.bytes := by
  obtain ⟨ir, op1, op2⟩ := l
  refine ⟨[ir, op1, op2].drop (instrWidth i), ?_⟩
  obtain ⟨rfl, rfl⟩ | ⟨rfl, rfl⟩ | ⟨rfl, rfl⟩ | ⟨rfl, rfl⟩ | ⟨rfl, rfl⟩ | ⟨rfl, rfl⟩ | ⟨rfl, rfl⟩ | ⟨rfl, rfl⟩ |
    ⟨rfl, rfl⟩ | ⟨rfl, rfl⟩ := decode_cases h
  all_goals rfl

/-- A latch that begins with the bytes of an instruction decodes to it, whatever bytes follow. -/
theorem decode_of_encode_isPrefix {l : Latch} {i : Instr} (h : encode i <+: l.bytes) : decode l = .ok i := by
  obtain ⟨ir, op1, op2⟩ := l
  obtain ⟨rest, hbytes⟩ := h
  cases i <;> cases hbytes <;> rfl

/-- The opcode byte of a decoded instruction is the one its latch holds. -/
theorem encode_head_of_decode {l : Latch} {i : Instr} (h : decode l = .ok i) : (encode i).head? = some l.ir := by
  obtain ⟨rest, hbytes⟩ := encode_isPrefix_of_decode h
  cases i <;> exact congrArg List.head? hbytes

/-! ## Every instruction answers -/

/-- An instruction always answers a next state: its handler is committed (40_engine.md R82). -/
theorem exec_next (i : Instr) (s : State) : ∃ t, exec i s = .next t := by
  cases i with
  | hlt => exact ⟨_, execHlt_eq s⟩
  | _ => exact commit_next s _

/-! ## What each instruction does to pc -/

/-- An instruction that sets pc to a target (43_stack_control.md R97). -/
def TransfersControl (i : Instr) : Prop := i = .ret ∨ ∃ r, i = .call r

/-- A stop keeps pc, a control transfer sets it to a byte, every other instruction advances it by its width
(40_engine.md R74, R76). -/
theorem ExecCase.pc_cases {s t : State} {i : Instr} (h : ExecCase s i t) :
    (t.status ≠ .running ∧ t.pc = s.pc) ∨ (t.status = s.status ∧ TransfersControl i ∧ t.pc ≤ 255) ∨
    (t.status = s.status ∧ ¬ TransfersControl i ∧ t.pc = s.pc + instrWidth i ∧
      (instrWidth i = 2 ∨ instrWidth i = 3)) := by
  cases h with
  | oobReg | pushOverflow | callOverflow | popUnderflow | retUnderflow | hlt => exact .inl ⟨nofun, rfl⟩
  | call r => exact .inr (.inl ⟨rfl, .inr ⟨r, rfl⟩, Nat.le_of_lt_succ (BitVec.isLt _)⟩)
  | ret => exact .inr (.inl ⟨rfl, .inl rfl, Nat.le_of_lt_succ (BitVec.isLt _)⟩)
  | ldi | add | mul | cmp => exact .inr (.inr ⟨rfl, by simp [TransfersControl], rfl, .inr rfl⟩)
  | prn | push | pop => exact .inr (.inr ⟨rfl, by simp [TransfersControl], rfl, .inl rfl⟩)

/-! ## What each instruction does to memory -/

/-- Memory is as before, or one byte is stored at sp - 1 by a push-type instruction (20_memory.md R42). -/
theorem ExecCase.mem_cases {s t : State} {i : Instr} (h : ExecCase s i t) :
    t.mem = s.mem ∨
    ((∃ r, i = .push r ∨ i = .call r) ∧ s.sp ≠ 0 ∧ ∃ v, t.mem = s.mem.write (s.sp - 1) v) := by
  cases h with
  | push r ok pos => exact .inr ⟨⟨r, .inl rfl⟩, pos, _, rfl⟩
  | call r ok pos => exact .inr ⟨⟨r, .inr rfl⟩, pos, _, rfl⟩
  | _ => exact .inl rfl

/-- A byte of a canonical memory that a write changes is the written one. -/
theorem eq_of_read_write_ne {m : Memory} {a b : Nat} {v : Byte} (hm : m.wf = true)
    (h : (m.write a v).read b ≠ m.read b) : b = a := by
  by_contra hne
  exact h (by rw [Memory.read_write hm, if_neg hne])

/-! ## What each instruction does to the registers -/

/-- A register that differs lies outside the frame. -/
theorem RegsSameBut.mem_of_ne {ds : List Reg} {s t : State} {j : Reg} (h : RegsSameBut ds s t)
    (hne : t.reg j ≠ s.reg j) : j ∈ ds := by
  by_contra hj
  exact hne (h j hj)

/-- A register that a write and an ending change is the written one. -/
theorem eq_of_writeReg_reg_ne {s : State} {i j : Reg} {v : Nat} {o : Ending}
    (hne : (applyEnding o (s.writeReg i v)).reg j ≠ s.reg j) : j = i :=
  List.mem_singleton.mp (((regsSameBut_writeReg s i v).applyEnding o).mem_of_ne hne)

/-- A register that a push and an ending change is R7. -/
theorem eq_of_pushed_reg_ne {s : State} {j : Reg} {v : Byte} {o : Ending}
    (hne : (applyEnding o (pushed s v)).reg j ≠ s.reg j) : j = 7 :=
  List.mem_singleton.mp (((regsSameBut_pushed s v).applyEnding o).mem_of_ne hne)

/-! ## What each instruction does at the ports -/

/-- A push-type instruction whose checks pass issues its one write (20_memory.md R42). -/
theorem pushTransactions_eq {op1 : Byte} {s : State} (v : State → Reg → Nat) (ok : op1.toNat < 8) (pos : s.sp ≠ 0) :
    pushTransactions op1 v s =
      [.memWr (BitVec.ofNat 8 (s.sp - 1)) (BitVec.ofNat 8 (v (s.writeReg 7 (s.sp - 1)) ⟨op1.toNat, ok⟩))] := by
  simp only [pushTransactions, regOperand_ok ok, spDecrement_pos pos, sp_after_decrement]

/-- A push-type instruction that overflows issues nothing. -/
theorem pushTransactions_overflow {op1 : Byte} {s : State} (v : State → Reg → Nat) (zero : s.sp = 0) :
    pushTransactions op1 v s = [] := by
  simp [pushTransactions, spDecrement_zero zero]

/-- A push-type instruction with a bad register operand issues nothing. -/
theorem pushTransactions_bad_register {op1 : Byte} {s : State} (v : State → Reg → Nat) (bad : 7 < op1.toNat) :
    pushTransactions op1 v s = [] := by
  simp [pushTransactions, regOperand_error bad]

/-- An instruction with a bad register operand issues nothing beyond its fetch. -/
theorem dataTransactions_bad_register {i : Instr} {b : Byte} (s : State) (h : firstBadRegister i = some b) :
    dataTransactions i s = [] := by
  obtain ⟨hmem, hbad⟩ := firstBadRegister_some h
  cases i with
  | ldi | hlt | mul | add | cmp => rfl
  | ret => cases hmem
  | prn r | pop r =>
    obtain rfl := List.mem_singleton.mp hmem
    simp only [dataTransactions, regOperand_error hbad]
  | push r | call r =>
    obtain rfl := List.mem_singleton.mp hmem
    exact pushTransactions_bad_register _ hbad

/-- An instruction issues at most one transaction beyond its fetch. -/
theorem dataTransactions_length_le (i : Instr) (s : State) : (dataTransactions i s).length ≤ 1 := by
  cases i with
  | ldi | hlt | mul | add | cmp => exact Nat.zero_le 1
  | ret => exact Nat.le_refl 1
  | prn | pop => simp only [dataTransactions]; split <;> simp
  | push | call => simp only [dataTransactions, pushTransactions]; split <;> simp

/-- The reads of a fetch leave the outside as it was (20_memory.md R46). -/
theorem replay_fetch_reads (x : Memory × List Byte) (s : State) :
    [readTransaction s s.pc, readTransaction s (s.pc + 1), readTransaction s (s.pc + 2)].foldl replayTransaction x =
      x := rfl

/-- The one write of a push-type instruction, replayed, is its store. -/
theorem replay_push_write (s : State) (v : Byte) :
    replayTransaction (s.mem, s.out) (.memWr (BitVec.ofNat 8 (s.sp - 1)) v) = ((pushed s v).mem, s.out) := by
  simp only [replayTransaction, decremented_sp_toNat, pushed_mem]

/-- The register a push-type instruction reads after its decrement (43_stack_control.md R92, R94). -/
theorem reg_after_decrement {op1 : Byte} (s : State) (ok : op1.toNat < 8) :
    (s.writeReg 7 (s.sp - 1)).reg ⟨op1.toNat, ok⟩ =
      if op1 = 7#8 then BitVec.ofNat 8 (s.sp - 1) else s.reg ⟨op1.toNat, ok⟩ := by
  simp only [writeReg_reg, regOperand_is_sp ok]

/-- An instruction's transactions, replayed from the memory and the output before it, give those after it. -/
theorem ExecCase.replay_dataTransactions {s t : State} {i : Instr} (h : ExecCase s i t) :
    (dataTransactions i s).foldl replayTransaction (s.mem, s.out) = (t.mem, t.out) := by
  cases h with
  | oobReg i b bad => rw [dataTransactions_bad_register s bad]; rfl
  | pushOverflow r ok zero | callOverflow r ok zero => rw [dataTransactions, pushTransactions_overflow _ zero]; rfl
  | prn r ok | pop r ok | popUnderflow r ok => simp only [dataTransactions, regOperand_ok ok]; rfl
  | push r ok pos =>
    rw [dataTransactions, pushTransactions_eq _ ok pos, BitVec.ofNat_toNat, BitVec.setWidth_eq, reg_after_decrement]
    exact replay_push_write s _
  | call r ok pos =>
    rw [dataTransactions, pushTransactions_eq _ ok pos]
    exact replay_push_write s _
  | ldi | hlt | mul | add | cmp | ret | retUnderflow => rfl

/-- The step that executes an instruction issues its three reads and the instruction's own transactions. -/
theorem stepTransactions_executes {s : State} {i : Instr} (hr : s.status = .running) (hpc : s.pc ≤ 253)
    (hd : decode s.latch = .ok i) :
    stepTransactions s = [readTransaction s s.pc, readTransaction s (s.pc + 1), readTransaction s (s.pc + 2)] ++
      dataTransactions i s := by
  simp only [stepTransactions, stopReason_none.mpr hr, fetch_eq hpc, decodeLatch, hd]

/-- The step at an unlisted opcode byte issues its three reads alone. -/
theorem stepTransactions_unknown {s : State} (hr : s.status = .running) (hpc : s.pc ≤ 253)
    (hir : s.latch.ir ∉ opcodeBytes) :
    stepTransactions s = [readTransaction s s.pc, readTransaction s (s.pc + 1), readTransaction s (s.pc + 2)] := by
  simp only [stepTransactions, stopReason_none.mpr hr, fetch_eq hpc, decodeLatch, decode_unlisted hir, List.append_nil]

/-! ## The statements -/

/-- Settles O3, one direction by the rows of the decoder and the other by the constructors of the instruction. -/
theorem decodeInvertsEncode : Obligations.DecodeInvertsEncode :=
  fun _ _ => ⟨encode_isPrefix_of_decode, decode_of_encode_isPrefix⟩

/-- Settles O8: a Running core takes the fault of its fetch or of its decode, or executes an instruction, which
answers. -/
theorem runningCoreAlwaysSteps : Obligations.RunningCoreAlwaysSteps := by
  intro s hr
  cases hf : fetchDecode s with
  | error e => exact ⟨_, step_raises hr hf⟩
  | ok i => rw [step_executes hr hf]; exact exec_next i s

/-- Settles O33, by what each case of `exec` does to pc. -/
theorem onlyCallRetTransferControl : Obligations.OnlyCallRetTransferControl := by
  intro i s t hr h
  obtain ⟨hstop, hpc⟩ | ⟨hst, hctl, hpc⟩ | ⟨hst, hctl, hadv⟩ := (exec_cases h).pc_cases
  · exact ⟨fun _ => hpc, fun hrun => absurd hrun hstop, fun hrun => absurd hrun hstop⟩
  · refine ⟨fun hne => absurd (hst.trans hr) hne, fun _ _ => hpc, fun _ hret hcall => ?_⟩
    obtain hi | ⟨r, hi⟩ := hctl
    · exact absurd hi hret
    · exact absurd hi (hcall r)
  · exact ⟨fun hne => absurd (hst.trans hr) hne, fun _ h => absurd h hctl, fun _ _ _ => hadv⟩

/-- Settles O34: a fault writes no memory, and an instruction that does is a push-type one, storing at sp - 1. -/
theorem onlyPushCallWriteMemory : Obligations.OnlyPushCallWriteMemory := by
  intro s t a hwf h hne
  obtain ⟨-, ⟨-, rfl⟩ | ⟨-, -, rfl⟩ | ⟨-, i, hd, hx⟩⟩ := step_cases h
  · exact absurd (takeFault_readByte ..) hne
  · exact absurd (takeFault_readByte ..) hne
  · obtain hmem | ⟨⟨r, hi⟩, hsp, v, hmem⟩ := (exec_cases hx).mem_cases
    · exact absurd (congrArg (Memory.read · a) hmem) hne
    · rw [State.readByte, hmem] at hne
      refine ⟨?_, hsp, eq_of_read_write_ne hwf hne⟩
      have hir := encode_head_of_decode hd
      obtain rfl | rfl := hi
      · exact .inl (Option.some.inj hir).symm
      · exact .inr (Option.some.inj hir).symm

/-- Settles O37, by the frame of each case of `exec`. -/
theorem registersChangeOnlyAsListed : Obligations.RegistersChangeOnlyAsListed := by
  intro i s t j h hne
  cases exec_cases h with
  | oobReg | pushOverflow | callOverflow | popUnderflow | retUnderflow => exact absurd (takeFault_reg ..) hne
  | prn | hlt | cmp => exact absurd (applyEnding_reg ..) hne
  | ldi | add | mul => exact (congrArg Fin.val (eq_of_writeReg_reg_ne hne)).symm
  | push | call => exact eq_of_pushed_reg_ne hne
  | ret => exact eq_of_writeReg_reg_ne hne
  | pop r ok =>
    have hmem : j ∈ [⟨r.toNat, ok⟩] ++ [7] :=
      (((regsSameBut_writeReg s _ _).trans (regsSameBut_writeReg _ _ _)).applyEnding _).mem_of_ne hne
    obtain rfl | rfl : j = ⟨r.toNat, ok⟩ ∨ j = 7 := by simpa using hmem
    · exact .inl rfl
    · exact .inr rfl

/-- Settles O38: the other selectors reach the ALU's last branch, and a step's faults are the fetch's, the decoder's, or
those an instruction records, none of which has the code. -/
theorem unsupportedOperationUnreachable : Obligations.UnsupportedOperationUnreachable := by
  refine ⟨fun sel a b s hadd hmul hcmp => ?_, fun s t rec h hf => ?_⟩
  · rw [aluApply, if_neg hadd, if_neg hmul, if_neg hcmp]
  · obtain ⟨hr, ⟨-, rfl⟩ | ⟨-, -, rfl⟩ | ⟨-, i, -, hx⟩⟩ := step_cases h
    · cases hf; nofun
    · cases hf; nofun
    · intro hcode
      obtain ⟨hother, -⟩ | ⟨hother, -⟩ | ⟨hother, -⟩ := (exec_cases hx).fault_cases hr hf
      all_goals cases hcode.symm.trans hother

/-- Settles O41: a failing fetch issues nothing, the three reads change nothing outside, and an instruction's own
transaction is its effect. -/
theorem transactionsExplainStep : Obligations.TransactionsExplainStep := by
  intro s t h
  obtain ⟨hr, ⟨hpc, rfl⟩ | ⟨hpc, hir, rfl⟩ | ⟨hpc, i, hd, hx⟩⟩ := step_cases h
  · rw [stepTransactions_eq_nil hpc]
    exact ⟨Nat.zero_le 4, rfl⟩
  · rw [stepTransactions_unknown hr hpc hir]
    exact ⟨Nat.le_succ 3, replay_fetch_reads ..⟩
  · rw [stepTransactions_executes hr hpc hd, List.length_append, List.foldl_append, replay_fetch_reads]
    exact ⟨Nat.add_le_add_left (dataTransactions_length_le i s) 3, (exec_cases hx).replay_dataTransactions⟩

/-- Settles O1: each row is one branch of the decoder. -/
theorem opcodeBytesDecode : Obligations.OpcodeBytesDecode :=
  fun _ _ => ⟨rfl, rfl, rfl, rfl, rfl, rfl, rfl, rfl, rfl, rfl⟩

/-- Settles O6: the three bytes at the pc are what the fetch hands to the decoder. -/
theorem stepRunsDecodedInstruction : Obligations.StepRunsDecodedInstruction :=
  fun _ _ hr hpc hd => step_executes hr (fetchDecode_eq hpc hd)

end Sys2Proof.Machine

end

section
/-! Proofs of the statements about the invariant: that a reset meets it, that every step keeps it, and what it says of a
fault record (10_state.md R19, R22; 60_exceptions.md R99, R100, R104). -/

namespace Sys2Proof.Machine

/-! ## The invariant, part by part -/

theorem legal_iff {s : State} : s.legal = true ↔
    s.mem.wf = true ∧ s.pc ≤ 256 ∧ flagsLegal s.fl = true ∧ statusExplained s = true := by
  simp only [State.legal, Bool.and_eq_true, decide_eq_true_eq, and_assoc]

/-- A Running status needs no explanation. -/
theorem statusExplained_of_running {s : State} (h : s.status = .running) : statusExplained s = true := by
  rw [statusExplained, h]

/-- A fault's record is explained by the state it was taken in, for a fault changes nothing it reads (R104). -/
theorem statusExplained_takeFault (e : Raised) (s : State) :
    statusExplained (takeFault e s) = recordExplained s ⟨e.code, s.pc, e.detail⟩ := rfl

/-- A register slot is one of the two operand slots (30_encoding.md R58). -/
theorem eq_of_mem_registerSlots {l : Latch} {b : Byte} (h : b ∈ Claims.registerSlots l) : b = l.op1 ∨ b = l.op2 := by
  unfold Claims.registerSlots at h
  split at h
  · exact .inl (List.mem_singleton.mp h)
  · split at h
    · simpa using h
    · cases h

/-! ## An instruction keeps each part -/

/-- The store of a push-type instruction keeps memory canonical. -/
theorem ExecCase.keeps_wf {s t : State} {i : Instr} (h : ExecCase s i t) (hwf : s.mem.wf = true) : t.mem.wf = true := by
  have hsp := sp_le_255 s
  obtain hmem | ⟨-, -, v, hmem⟩ := h.mem_cases
  · rwa [hmem]
  · rw [hmem]
    exact Memory.wf_write hwf (by omega)

/-- From a fetchable pc an instruction leaves pc at most 256 (10_state.md R19). -/
theorem ExecCase.pc_le_256 {s t : State} {i : Instr} (h : ExecCase s i t) (hpc : s.pc ≤ 253) : t.pc ≤ 256 := by
  obtain ⟨-, h⟩ | ⟨-, -, h⟩ | ⟨-, -, h, hw⟩ := h.pc_cases <;> omega

/-- FL stays 0x00 or one-hot (10_state.md R22). -/
theorem ExecCase.keeps_flagsLegal {s t : State} {i : Instr} (h : ExecCase s i t) (hfl : flagsLegal s.fl = true) :
    flagsLegal t.fl = true := by
  cases h with
  | cmp a b oka okb =>
    exact decide_eq_true (List.mem_cons_of_mem _ (compareFlags_mem (s.reg ⟨a.toNat, oka⟩).toNat _))
  | _ => simpa using hfl

/-- A status that an instruction leaves is explained: by the HLT or by the bytes and the stack pointer that raised the
fault (60_exceptions.md R100, R103). -/
theorem ExecCase.statusExplained_of_decode {s t : State} {i : Instr} (h : ExecCase s i t) (hr : s.status = .running)
    (hpc : s.pc ≤ 253) (hd : decode s.latch = .ok i) : statusExplained t = true := by
  have hir := encode_head_of_decode hd
  cases h with
  | oobReg i b bad =>
    obtain ⟨hmem, hbad⟩ := firstBadRegister_some bad
    rw [← registerSlots_of_decode hd] at hmem
    have hslot := (eq_of_mem_registerSlots hmem).imp (congrArg BitVec.toNat) (congrArg BitVec.toNat)
    have hlt := b.isLt
    rw [statusExplained_takeFault]
    simp only [recordExplained, decide_true, Bool.true_and, decide_eq_true_eq]
    exact ⟨hpc, by omega, by omega, hslot⟩
  | pushOverflow r ok zero | callOverflow r ok zero =>
    have hop := Option.some.inj hir
    simp [statusExplained_takeFault, recordExplained, hpc, ← hop, zero]
  | popUnderflow | retUnderflow =>
    have hop := Option.some.inj hir
    simp [statusExplained_takeFault, recordExplained, hpc, ← hop]
  | hlt => exact decide_eq_true ⟨hpc, (Option.some.inj hir).symm⟩
  | _ => exact statusExplained_of_running hr

/-! ## The record of a legal Faulted state -/

/-- An explained record has the state's pc, a detail that an address or a byte can be, and a code that steps record. -/
theorem recordExplained_bounds {s : State} {rec : FaultRecord} (h : recordExplained s rec = true) :
    rec.fpc = s.pc ∧ rec.detail ≤ 256 ∧ rec.code ≠ .unsupportedOperation := by
  obtain ⟨code, fpc, detail⟩ := rec
  obtain ⟨hpc, hcode⟩ : fpc = s.pc ∧ _ := by simpa only [recordExplained, Bool.and_eq_true, decide_eq_true_eq] using h
  have hir := s.latch.ir.isLt
  cases code with
  | unsupportedOperation => cases hcode
  | _ =>
    simp only [decide_eq_true_eq] at hcode
    exact ⟨hpc, by dsimp only; omega, nofun⟩

/-- The record of a legal Faulted state fits the port's 9-bit signals (10_state.md R36). -/
theorem legal_faulted_bounds {s : State} {rec : FaultRecord} (hl : s.legal = true) (hf : s.status = .faulted rec) :
    rec.fpc ≤ 256 ∧ rec.detail ≤ 256 ∧ rec.code ≠ .unsupportedOperation := by
  obtain ⟨-, hpc, -, hstatus⟩ := legal_iff.mp hl
  rw [statusExplained, hf] at hstatus
  obtain ⟨hfpc, hdetail, hcode⟩ := recordExplained_bounds hstatus
  exact ⟨hfpc ▸ hpc, hdetail, hcode⟩

/-- The port of a Faulted state carries its record (60_exceptions.md R99). -/
theorem faultPort_eq {s : State} {rec : FaultRecord} (hf : s.status = .faulted rec) :
    s.faultPort = some ⟨faultNumber rec.code, BitVec.ofNat 9 rec.fpc, BitVec.ofNat 9 rec.detail⟩ := by
  rw [State.faultPort, hf]

/-- No two codes share a number (60_exceptions.md R99). -/
theorem faultNumber_injective : Function.Injective faultNumber := by
  intro a b
  cases a <;> cases b <;> decide

/-- Nine bits hold a number up to 256 as it stands. -/
theorem toNat_ofNat_nine {n : Nat} (h : n ≤ 256) : (BitVec.ofNat 9 n).toNat = n := by
  rw [BitVec.toNat_ofNat]
  omega

/-- Nine bits tell the numbers up to 256 apart. -/
theorem ofNat_nine_inj {m n : Nat} (hm : m ≤ 256) (hn : n ≤ 256) (h : BitVec.ofNat 9 m = BitVec.ofNat 9 n) : m = n := by
  rw [← toNat_ofNat_nine hm, h, toNat_ofNat_nine hn]

/-! ## The statements -/

/-- Settles O27, part by part: a fault in the fetch or the decode is explained by the pc and the bytes there, and each
case of `exec` keeps each part. -/
theorem stepKeepsLegal : Obligations.StepKeepsLegal := by
  intro s t hl h
  obtain ⟨hwf, hpc256, hfl, -⟩ := legal_iff.mp hl
  obtain ⟨hr, ⟨hpc, rfl⟩ | ⟨hpc, hir, rfl⟩ | ⟨hpc, i, hd, hx⟩⟩ := step_cases h
  · refine legal_iff.mpr ⟨hwf, hpc256, hfl, ?_⟩
    simp [statusExplained_takeFault, recordExplained, hpc, hpc256]
  · refine legal_iff.mpr ⟨hwf, hpc256, hfl, ?_⟩
    simp [statusExplained_takeFault, recordExplained, hpc, hir]
  · have hc := exec_cases hx
    exact legal_iff.mpr ⟨hc.keeps_wf hwf, hc.pc_le_256 hpc, hc.keeps_flagsLegal hfl,
      hc.statusExplained_of_decode hr hpc hd⟩

/-- Settles O28: the fields of the reset state meet each part, and `State.reset` is one of those states. -/
theorem resetIsLegal : Obligations.ResetIsLegal := by
  have hreset : ∀ (gpr : ResetGpr) (mem : Memory), mem.wf = true → (State.resetWith gpr mem).legal = true :=
    fun gpr mem hwf => legal_iff.mpr ⟨hwf, Nat.zero_le 256, by rw [resetWith_fl]; decide,
      statusExplained_of_running (resetWith_status gpr mem)⟩
  exact ⟨hreset, hreset ResetGpr.chosen [] reset_mem_wf⟩

/-- Settles O42: the codes' numbers differ, and in a legal state pc and detail are at most 256, which 9 bits hold. -/
theorem faultPortLosesNothing : Obligations.FaultPortLosesNothing := by
  refine ⟨fun s rec hl hf => ?_, fun s t rec rec' hs ht hfs hft hport => ?_, rfl⟩
  · obtain ⟨hfpc, hdetail, hcode⟩ := legal_faulted_bounds hl hf
    refine ⟨_, faultPort_eq hf, ?_⟩
    simp only [toNat_ofNat_nine hfpc, toNat_ofNat_nine hdetail]
    cases hc : rec.code with
    | unsupportedOperation => exact absurd hc hcode
    | _ => simp [faultNumber]
  · obtain ⟨hfpc, hdetail, -⟩ := legal_faulted_bounds hs hfs
    obtain ⟨hfpc', hdetail', -⟩ := legal_faulted_bounds ht hft
    rw [faultPort_eq hfs, faultPort_eq hft, Option.some.injEq, FaultPort.mk.injEq] at hport
    obtain ⟨hcode, hpc, hdet⟩ := hport
    obtain ⟨code, fpc, detail⟩ := rec
    obtain ⟨code', fpc', detail'⟩ := rec'
    rw [FaultRecord.mk.injEq]
    exact ⟨faultNumber_injective hcode, ofNat_nine_inj hfpc hfpc' hpc, ofNat_nine_inj hdetail hdetail' hdet⟩

end Sys2Proof.Machine

end

section
/-! Proofs of the statements about memory and registers, the host's load, the placed word, sequences of two instructions
and runs (10_state.md R27, R37; 20_memory.md R39, R40, R52; 40_engine.md R80, R81; 43_stack_control.md R96;
70_reset_and_hazards.md R116, R117; 95_test_vectors.md W3, W7, W8). -/

namespace Sys2Proof.Machine

/-! ## Canonical memories -/

theorem Memory.wfFrom_cons_iff {lo a : Nat} {v : Byte} {m : Memory} : Memory.wfFrom lo ((a, v) :: m) = true ↔
    lo ≤ a ∧ a ≤ 255 ∧ v ≠ Config.unlistedByte ∧ Memory.wfFrom (a + 1) m = true := by
  simp only [Memory.wfFrom, Bool.and_eq_true, decide_eq_true_eq, and_assoc]

theorem Memory.read_cons_self (a : Nat) (v : Byte) (m : Memory) : Memory.read ((a, v) :: m) a = v := if_pos rfl

theorem Memory.read_cons_of_ne {a c : Nat} (v : Byte) (m : Memory) (h : c ≠ a) :
    Memory.read ((a, v) :: m) c = Memory.read m c := if_neg h

/-- A listed first cell is read, so a canonical memory with the same reads begins at or below it. -/
theorem Memory.first_le_of_reads {lo lo' a b : Nat} {v w : Byte} {m n : Memory}
    (hm : Memory.wfFrom lo ((a, v) :: m) = true) (hn : Memory.wfFrom lo' ((b, w) :: n) = true)
    (h : Memory.read ((a, v) :: m) a = Memory.read ((b, w) :: n) a) : b ≤ a := by
  by_contra hlt
  obtain ⟨-, -, hv, -⟩ := Memory.wfFrom_cons_iff.mp hm
  obtain ⟨-, hb, hw, hn⟩ := Memory.wfFrom_cons_iff.mp hn
  have hbelow : Memory.wfFrom b ((b, w) :: n) = true := Memory.wfFrom_cons_iff.mpr ⟨Nat.le_refl b, hb, hw, hn⟩
  rw [Memory.read_cons_self, Memory.read_below hbelow (by omega)] at h
  exact hv h

/-- Canonical memories with the same reads are the same list. -/
theorem Memory.wfFrom_ext {m : Memory} : ∀ {n : Memory} {lo : Nat}, Memory.wfFrom lo m = true →
    Memory.wfFrom lo n = true → (∀ a, m.read a = n.read a) → m = n := by
  induction m with
  | nil =>
    intro n lo _ hn h
    cases n with
    | nil => rfl
    | cons c n =>
      obtain ⟨-, -, hw, -⟩ := Memory.wfFrom_cons_iff.mp hn
      exact absurd ((h c.1).trans (Memory.read_cons_self ..)).symm hw
  | cons c m ih =>
    intro n lo hm hn h
    obtain ⟨a, v⟩ := c
    cases n with
    | nil =>
      obtain ⟨-, -, hv, -⟩ := Memory.wfFrom_cons_iff.mp hm
      exact absurd ((Memory.read_cons_self ..).symm.trans (h a)) hv
    | cons d n =>
      obtain ⟨b, w⟩ := d
      obtain rfl : a = b := Nat.le_antisymm (Memory.first_le_of_reads hn hm (h b).symm)
        (Memory.first_le_of_reads hm hn (h a))
      obtain ⟨-, -, -, hm'⟩ := Memory.wfFrom_cons_iff.mp hm
      obtain ⟨-, -, -, hn'⟩ := Memory.wfFrom_cons_iff.mp hn
      obtain rfl : v = w := by simpa only [Memory.read_cons_self] using h a
      refine congrArg ((a, v) :: ·) (ih hm' hn' fun c => ?_)
      by_cases hc : c = a
      · rw [Memory.read_below hm' (by omega), Memory.read_below hn' (by omega)]
      · simpa only [Memory.read_cons_of_ne v _ hc] using h c

/-! ## The host's load -/

/-- A load leaves the cells below its first address. -/
theorem read_placeImage_below {image : List Byte} : ∀ {a b : Nat} {m : Memory}, m.wf = true →
    a + image.length ≤ 256 → b < a → (placeImage a image m).read b = m.read b := by
  induction image with
  | nil => intros; rfl
  | cons v vs ih =>
    intro a b m hwf hlen hb
    rw [List.length_cons] at hlen
    rw [placeImage, ih (Memory.wf_write hwf (by omega)) (by omega) (by omega), Memory.read_write hwf,
      if_neg (by omega)]

/-- From its first address on a load puts the image's bytes, and leaves the cells past its end (R27, R117). -/
theorem read_placeImage {image : List Byte} : ∀ {a k : Nat} {m : Memory}, m.wf = true → a + image.length ≤ 256 →
    (placeImage a image m).read (a + k) = image[k]?.getD (m.read (a + k)) := by
  induction image with
  | nil => intros; rfl
  | cons v vs ih =>
    intro a k m hwf hlen
    rw [List.length_cons] at hlen
    have hwf' : (m.write a v).wf = true := Memory.wf_write hwf (by omega)
    rw [placeImage]
    cases k with
    | zero =>
      rw [read_placeImage_below hwf' (by omega) (by omega), Memory.read_write hwf, if_pos (Nat.add_zero a)]
      rfl
    | succ k =>
      rw [show a + (k + 1) = a + 1 + k by omega, ih hwf' (by omega), Memory.read_write hwf, if_neg (by omega),
        List.getElem?_cons_succ]

/-- A launch of an image of 1 to 256 bytes is a reset over the loaded memory. -/
theorem launch_eq {image : List Byte} (gpr : ResetGpr) (memInit : Memory) (h1 : 1 ≤ image.length)
    (h256 : image.length ≤ 256) :
    launch gpr image memInit = some (State.resetWith gpr (placeImage 0 image memInit)) := by
  rw [launch, loadImage, if_pos ⟨h1, h256⟩]
  rfl

/-- An image of no byte or of more than 256 is refused. -/
theorem launch_refused {image : List Byte} (gpr : ResetGpr) (memInit : Memory)
    (h : ¬ (1 ≤ image.length ∧ image.length ≤ 256)) : launch gpr image memInit = none := by
  rw [launch, loadImage, if_neg h]
  rfl

/-! ## A latch placed at the pc -/

/-- Placing a latch where a fetch can read it writes its three cells and nothing else. -/
theorem pokeLatch_eq {s : State} (l : Latch) (hpc : s.pc ≤ 253) : s.pokeLatch l =
    { s with mem := ((s.mem.write s.pc l.ir).write (s.pc + 1) l.op1).write (s.pc + 2) l.op2 } := by
  have h0 : ¬ 255 < s.pc := by omega
  have h1 : ¬ 255 < s.pc + 1 := by omega
  have h2 : ¬ 255 < s.pc + 2 := by omega
  simp only [State.pokeLatch, State.pokeByte, h0, h1, h2, if_false]

/-- A cell after a latch was placed: one of its bytes, or what the cell held. -/
theorem pokeLatch_readByte {s : State} (l : Latch) (hwf : s.mem.wf = true) (hpc : s.pc ≤ 253) (a : Nat) :
    (s.pokeLatch l).readByte a = if a = s.pc + 2 then l.op2 else if a = s.pc + 1 then l.op1
      else if a = s.pc then l.ir else s.readByte a := by
  have hwf0 : (s.mem.write s.pc l.ir).wf = true := Memory.wf_write hwf (by omega)
  have hwf1 : ((s.mem.write s.pc l.ir).write (s.pc + 1) l.op1).wf = true := Memory.wf_write hwf0 (by omega)
  rw [pokeLatch_eq l hpc, State.readByte, Memory.read_write hwf1, Memory.read_write hwf0, Memory.read_write hwf]
  rfl

/-- A placed latch is the one the next fetch reads. -/
theorem pokeLatch_latch {s : State} (l : Latch) (hwf : s.mem.wf = true) (hpc : s.pc ≤ 253) :
    (s.pokeLatch l).latch = l := by
  have hpc' : (s.pokeLatch l).pc = s.pc := by rw [pokeLatch_eq l hpc]
  simp [State.latch, hpc', pokeLatch_readByte l hwf hpc]

/-- A table word decodes when its latch does. -/
theorem decode_of_decodeTableWord {nbits w : Nat} {i : Instr} (h : decodeTableWord nbits w = some i) :
    decode (tableLatch nbits w) = .ok i := by
  rw [decodeTableWord] at h
  cases hd : decode (tableLatch nbits w) with
  | error e => rw [hd] at h; cases h
  | ok j => rw [hd] at h; cases h; rfl

/-! ## Sequences of two instructions -/

/-- A stack pointer that is back at its value takes R7 out of a frame's exceptions. -/
theorem RegsSameBut.restore_sp {ds es : List Reg} {s t : State} (h : RegsSameBut es s t) (hsp : t.sp = s.sp)
    (hsub : ∀ j ∈ es, j = 7 ∨ j ∈ ds) : RegsSameBut ds s t := by
  intro j hj
  by_cases he : j ∈ es
  · obtain rfl : j = 7 := (hsub j he).resolve_right hj
    exact BitVec.eq_of_toNat_eq hsp
  · exact h j he

/-- The k-th byte that a fetch reads is the one at pc + k (40_engine.md R68). -/
theorem latch_bytes_getElem? (s : State) {k : Nat} (h : k < 3) : s.latch.bytes[k]? = some (s.readByte (s.pc + k)) := by
  interval_cases k <;> rfl

/-! ## Runs -/

theorem runsTo_zero {s t : State} : RunsTo s 0 t ↔ s = t :=
  ⟨fun h => Host.Outcome.next.inj h, congrArg Host.Outcome.next⟩

/-- A run of a step more begins with a step that answers. -/
theorem run_succ_eq_next {M : Host.Core} {s t : M.State} {n : Nat} (h : M.run (n + 1) s = .next t) :
    ∃ u, M.step s = .next u ∧ M.run n u = .next t := by
  rw [Host.Core.run] at h
  cases hu : M.step s with
  | next u => rw [hu] at h; exact ⟨u, rfl, h⟩
  | fault r => rw [hu] at h; cases h
  | refused r => rw [hu] at h; cases h

theorem runsTo_succ {s t : State} {n : Nat} (h : RunsTo s (n + 1) t) : ∃ u, step s = .next u ∧ RunsTo u n t :=
  run_succ_eq_next (M := core) h

/-- Two stopped states of one run are the same: a stopped state takes no step, and a step has one answer. -/
theorem RunsTo.stopped_unique {n : Nat} : ∀ {m : Nat} {s t u : State}, RunsTo s n t → RunsTo s m u →
    t.status ≠ .running → u.status ≠ .running → t = u := by
  induction n with
  | zero =>
    intro m s t u ht hu hts hus
    obtain rfl := runsTo_zero.mp ht
    cases m with
    | zero => exact runsTo_zero.mp hu
    | succ m =>
      obtain ⟨v, hv, -⟩ := runsTo_succ hu
      exact absurd (step_cases hv).1 hts
  | succ n ih =>
    intro m s t u ht hu hts hus
    obtain ⟨v, hv, ht⟩ := runsTo_succ ht
    cases m with
    | zero =>
      obtain rfl := runsTo_zero.mp hu
      exact absurd (step_cases hv).1 hus
    | succ m =>
      obtain ⟨v', hv', hu⟩ := runsTo_succ hu
      cases hv.symm.trans hv'
      exact ih ht hu hts hus

/-! ## The statements -/

/-- Settles O21: the PUSH stores at sp - 1, where the POP reads, and the POP raises sp by the one that the PUSH took. -/
theorem pushPopRoundTrip : Obligations.PushPopRoundTrip := by
  intro op1 op2 s h1 h2 hwf hsp h7
  obtain ⟨t, ht, htsp, htregs, htop, -, htpc, -⟩ := pushStoresBelow.2.1 op1 s h1 hwf hsp
  have hle := sp_le_255 s
  change t.sp = s.sp - 1 at htsp
  obtain ⟨u, hu, hdest, husp, huregs, hupc, -⟩ :=
    popLoadsThenRaises.2.1 op2 t h2 t.sp (if_neg h7).symm (by omega)
  have hback : u.sp = s.sp := husp.trans (by omega)
  refine ⟨t, u, ht, hu, hback, ?_, (htregs.trans huregs).restore_sp hback (by simp), by omega⟩
  rw [hdest h7, htsp, htop]

/-- Settles O22: the CALL stores the return address at sp - 1, where the RET reads, and the RET raises sp back. -/
theorem callRetRoundTrip : Obligations.CallRetRoundTrip := by
  intro op1 s h1 hwf hsp hpc
  obtain ⟨t, ht, htsp, htregs, -, hret, -, -, htfl, -⟩ := callStoresReturnAddress.2.1 op1 s h1 hwf hsp
  have hle := sp_le_255 s
  change t.sp = s.sp - 1 at htsp
  obtain ⟨u, hu, hupc, husp, huregs, hufl, -⟩ := retPopsProgramCounter.2.1 t (by omega)
  have hback : u.sp = s.sp := husp.trans (by omega)
  refine ⟨t, u, ht, hu, ?_, (htregs.trans huregs).restore_sp hback (by simp), hufl.trans htfl⟩
  rw [hupc, htsp, hret hpc]

/-- Settles O23: the step is the PUSH, which stores at sp - 1, and that is the k-th address of the next fetch. -/
theorem storedByteIsFetchedNext : Obligations.StoredByteIsFetchedNext := by
  intro s k h hr hwf hpc hir hk hsp
  have hd : decode s.latch = .ok (.push s.latch.op1) :=
    decode_of_encode_isPrefix ⟨[s.latch.op2], by rw [Latch.bytes, hir]; rfl⟩
  obtain ⟨t, ht, -, -, htop, -, htpc, -⟩ := pushStoresBelow.2.1 s.latch.op1 s h hwf (by omega)
  refine ⟨t, t.latch, (step_executes hr (fetchDecode_eq (by omega) hd)).trans ht, fetch_eq (by omega), ?_⟩
  rw [latch_bytes_getElem? t hk, show t.pc + k = s.sp - 1 by omega, htop]

/-- Settles O24, by the canonical list's read after write, and by the range check of both primitives. -/
theorem memoryReadAfterWrite : Obligations.MemoryReadAfterWrite := by
  refine ⟨fun s a v hwf ha => ⟨_, memWrite_eq s ha, ⟨_, memRead_eq _ ha, ?_⟩, fun b hb => ?_⟩,
    fun s a v ha => ⟨memRead_out_of_bounds s ha, memWrite_out_of_bounds s ha⟩⟩
  · rw [State.readByte, Memory.read_write hwf, if_pos rfl, BitVec.toNat_ofNat]
  · simp only [memRead, State.readByte, Memory.read_write hwf, if_neg hb]

/-- Settles O25: above 255 a canonical memory reads as unlisted, so the two agree on every address. -/
theorem canonicalMemoryUnique : Obligations.CanonicalMemoryUnique := by
  intro m n hm hn h
  refine Memory.wfFrom_ext hm hn fun a => ?_
  by_cases ha : a ≤ 255
  · exact h a ha
  · rw [Memory.read_above hm (by omega), Memory.read_above hn (by omega)]

/-- Settles O40: the launched state is the reset state over the loaded memory, whose cells are the image's and, past its
end, MEM_INIT's. -/
theorem launchLoadsImage : Obligations.LaunchLoadsImage := by
  refine fun gpr image memInit hwf => ⟨fun h1 h256 => ⟨_, launch_eq gpr memInit h1 h256, ?_⟩,
    fun h => launch_refused gpr memInit ?_⟩
  · have hlen : 0 + image.length ≤ 256 := by omega
    have hread : ∀ k, (placeImage 0 image memInit).read k = image[k]?.getD (memInit.read k) := fun k => by
      simpa only [Nat.zero_add] using read_placeImage (a := 0) (k := k) hwf hlen
    refine ⟨fun k v hk => ?_, fun a ha => ?_, placeImage_keeps_wf hwf hlen, by simp⟩
    · rw [resetWith_readByte, hread, hk, Option.getD_some]
    · rw [resetWith_readByte, hread, List.getElem?_eq_none ha, Option.getD_none]
  · obtain rfl | hlong := h
    · simp
    · omega

/-- Settles O43: two ends are stopped states of one run, and a Halted and a Faulted state would be two such states. -/
theorem runEndIsUnique : Obligations.RunEndIsUnique := by
  refine ⟨fun s t u ⟨⟨n, ht⟩, hts⟩ ⟨⟨m, hu⟩, hus⟩ => ht.stopped_unique hu hts hus, ?_⟩
  intro s ⟨n, t, ht, hhalt⟩ m u hu rec hfault
  obtain rfl := ht.stopped_unique hu (by simp [hhalt]) (by simp [hfault])
  cases hhalt.symm.trans hfault

/-- Settles O20: the PRN reads the register that the LDI wrote. -/
theorem ldiThenPrnOutputs : Obligations.LdiThenPrnOutputs := by
  intro op1 v s h1
  obtain ⟨t, ht, hdest, -, htpc, -, -, htout, -⟩ := ldiLoadsImmediate.2.1 op1 v s h1
  obtain ⟨u, hu, huout, -, hupc, -⟩ := prnAppendsOutput.2.1 op1 t h1
  exact ⟨t, u, ht, hu, by rw [huout, htout, hdest], by omega⟩

/-- Settles O26, by the register file's read after write. -/
theorem registerWriteReadsBack : Obligations.RegisterWriteReadsBack :=
  fun s i v => ⟨writeReg_reg_self_toNat s i v, regsSameBut_writeReg s i v⟩

/-- Settles O44: the placed latch is what the step fetches, and the placing wrote its three cells alone. -/
theorem placedWordRunsNext : Obligations.PlacedWordRunsNext := by
  intro s nbits w i hr hwf hpc hword
  have hplaced := pokeLatch_eq (tableLatch nbits w) hpc
  have hd : decode (s.withFetchWord nbits w).latch = .ok i := by
    rw [State.withFetchWord, pokeLatch_latch _ hwf hpc, decode_of_decodeTableWord hword]
  refine ⟨step_executes ?_ (fetchDecode_eq ?_ hd), ⟨_, hplaced⟩, fun a h0 h1 h2 => ?_⟩
  · rwa [State.withFetchWord, hplaced]
  · rwa [State.withFetchWord, hplaced]
  · rw [State.withFetchWord, pokeLatch_readByte _ hwf hpc, if_neg h2, if_neg h1, if_neg h0]

end Sys2Proof.Machine

end
